-- ==== Sys2Proof/Word.lean ====
section
/-! DEFINITION. The data CORE works on: bytes, byte sequences, 16-byte blocks, the mode tag, and what travels
with one command word on the command channel (00_scope.md §4, R8; 10_state.md R28; 30_encoding.md R70, R74). -/

namespace Sys2Proof

/-- A byte: an unsigned 8-bit value (00_scope.md §4). -/
abbrev Byte := BitVec 8

/-- A finite sequence of bytes, first byte first; its length travels with it (00_scope.md §4, R74). -/
abbrev ByteSeq := List Byte

/-- A block: a byte sequence of length exactly 16, `bytes[0]` its first byte (R8; 00_scope.md §4).  The length is
part of the data, so no other input can reach the primitive port (R31, R32). -/
@[ext] structure Block where
  bytes : ByteSeq
  length_eq : bytes.length = 16
deriving DecidableEq, Repr

/-- The block `00..00`. -/
def Block.zero : Block := ⟨List.replicate 16 0, by simp⟩

/-- The closed enumeration of modes of operation (R2, R28). -/
inductive CipherMode where
  | cfb
  | ofb
  | ctr
  | cbc
deriving DecidableEq, Repr

/-- The operand channels of one command (R74, R166 `ops`): `key`, `iv` and `data` carry their own lengths, `a` and
`b` are 16 bytes wide.  A command uses the channels its opcode names; the others are not examined. -/
structure Operands where
  key : ByteSeq
  iv : ByteSeq
  data : ByteSeq
  a : Block
  b : Block
deriving DecidableEq, Repr

/-- Every channel at its zero value: empty sequences and zero blocks. -/
def Operands.zero : Operands := ⟨[], [], [], Block.zero, Block.zero⟩

/-- One command: the 32-bit command word `CMD` and its operands (R70, R74). -/
structure Command where
  word : BitVec 32
  ops : Operands
deriving DecidableEq, Repr

end Sys2Proof
end

