-- ==== Sys2Proof/Machine/State.lean ====
section
/-! DEFINITION. The state of CORE (10_state.md): the context registers, the per-command registers, and the command
channel with what has been seen on it. -/

namespace Sys2Proof.Machine

open Sys2Proof

/-- One call on the primitive port with its 16-byte input: `(E, x)` or `(D, x)` (R30). -/
inductive PrimCall where
  | E (x : Block)
  | D (x : Block)
deriving DecidableEq, Repr

/-- What a command can report in the `CODE` field of its STATUS word (60_exceptions.md R200). -/
inductive StatusCode where
  | ok
  | invalidIVLength
  | invalidCiphertextLength
  | invalidPadding
  | invalidKey
  | noContext
  | illegalCommand
deriving DecidableEq, Repr

/-- The response to one command: its STATUS word and its output (R27). -/
structure Response where
  status : BitVec 32
  out : ByteSeq
deriving DecidableEq, Repr

/-- What one command observably did: its response and its primitive-call trace (R30, R166). -/
structure Observation where
  response : Response
  trace : List PrimCall
deriving DecidableEq, Repr

/-- What the host does to the engine: issue a command (R55), or reset it (70_reset_and_hazards.md R230). -/
inductive HostAction where
  | command (c : Command)
  | reset
deriving DecidableEq, Repr

/-- The per-command registers, named for the fault below (R23 to R25). -/
inductive PerCommandReg where
  | cr
  | ks
  | bidx
  | out
deriving DecidableEq, Repr

/-- Why the machine stops with a fault. -/
inductive Fault where
  /-- A read of a per-command register that holds no value (10_state.md R35; 93_implementation_defined.md U5).  Raised by
  the reads of `Machine/Ops.lean` alone.  Safe: the spec asks for it, and no command of the spec makes such a read. -/
  | noValue (r : PerCommandReg)
deriving DecidableEq, Repr

/-- Why the machine has no transition. -/
inductive Refusal where
  /-- The instruction has no meaning yet.  Raised by `exec` alone.  Safe. -/
  | notModelled (mnemonic : String)
  /-- The DATA of an ENC or DEC is longer than the build's `MAX_DATA_LEN`: the model has no transition for it
  (30_encoding.md R75; 93_implementation_defined.md U6).  Raised by `encOn` and `decOn`, so by
  `execOn` and `stepOn`, on a build that sets the bound.  Safe. -/
  | dataTooLong
deriving DecidableEq, Repr

/-- The state of CORE.  A per-command register is `none` while it holds no value, which is always so between
commands (R20, R35). -/
structure State where
  /-- `CTXV`: a context has been constructed (R26). -/
  ctxv : Bool
  /-- `MODE`: the mode tag of the context (R28). -/
  mode : CipherMode
  /-- `KEYREG`: the key binding of the context (R29). -/
  keyreg : ByteSeq
  /-- `CR`: the chaining register (R23). -/
  cr : Option Block
  /-- `KS`: the keystream latch (R24). -/
  ks : Option Block
  /-- `BIDX`: the index of the block being processed (R22, R25). -/
  bidx : Option Nat
  /-- `OUT`: the output being built by `emit` (R25). -/
  out : Option ByteSeq
  /-- The primitive-call trace of the command being executed, first call first (R30). -/
  trace : List PrimCall
  /-- The command channel, host to engine: what the host does next, in its order (R22, R55). -/
  host : List HostAction
  /-- The command channel, engine to host, and the primitive port: what each completed command did, in issue order
  (R27, R30, R55). -/
  observed : List Observation
deriving DecidableEq, Repr

/-- The state after reset (R36): no context, no command executing, the channel idle and nothing observed.  `MODE` and
`KEYREG` are unspecified there.  DESIGN CHOICE, unsafe (log entry 1): the model gives them CFB (`00`) and the empty key;
no rule reads either while `CTXV = 0`. -/
def State.reset : State where
  ctxv := false
  mode := .cfb
  keyreg := []
  cr := none
  ks := none
  bidx := none
  out := none
  trace := []
  host := []
  observed := []

end Sys2Proof.Machine
end

