-- ==== Sys2Proof/Machine/Flags.lean ====
section
/-! DEFINITION. CORE has no flags and no condition codes (10_state.md R33).  The one condition it reports is the
`CODE` field of a response's STATUS word (R27; 60_exceptions.md R200). -/

namespace Sys2Proof.Machine

/-- The numeric value of a status code (R200). -/
def StatusCode.code : StatusCode → BitVec 4
  | .ok => 0
  | .invalidIVLength => 1
  | .invalidCiphertextLength => 2
  | .invalidPadding => 3
  | .invalidKey => 4
  | .noContext => 5
  | .illegalCommand => 6

/-- The STATUS word of a status code: `CODE` in bits [3:0], the reserved bits [31:4] zero (R27). -/
def StatusCode.word (c : StatusCode) : BitVec 32 := c.code.setWidth 32

/-- `CODE`, bits [3:0] of a STATUS word (R27). -/
def statusCodeField (w : BitVec 32) : BitVec 4 := w.extractLsb' 0 4

/-- The reserved bits [31:4] of a STATUS word (R27). -/
def statusReservedField (w : BitVec 32) : BitVec 28 := w.extractLsb' 4 28

end Sys2Proof.Machine
end

