-- ==== Sys2Proof/Config.lean ====
section
/-! DEFINITION. The OPEN parameters of CORE (00_scope.md R9, R10): the external block cipher primitive, which keys
it accepts, and the longest DATA a build carries.  The fixed parameters of R9 are in the types: 16-byte blocks
(`Block`), a 32-bit command word (`Command.word`), one context and one channel (`Machine.State`). -/

namespace Sys2Proof

/-- The default of `PRIM_KEY_VALID`: the key is 16 bytes long (R9; 92_eei_decisions.md D15). -/
def Config.defaultKeyValid (key : ByteSeq) : Bool := key.length == 16

/-- The external primitive (R4, R9, R10): total functions of the key and one block, of which law 2 of R10 is all a
model may assume.  `keyValid` has the default R9 gives it.  The defaults of the other fields serve one purpose: they
show that a lawful primitive exists, so that `Config.primitive` can be declared without a body.  Nothing can be proved
of `Config.primitive` from any default. -/
structure Primitive where
  /-- `PRIM_KEY_VALID` (R9; 92_eei_decisions.md D15). -/
  keyValid : ByteSeq → Bool := Config.defaultKeyValid
  /-- `PRIM_ENC` (R9). -/
  enc : ByteSeq → Block → Block := fun _ x => x
  /-- `PRIM_DEC` (R9). -/
  dec : ByteSeq → Block → Block := fun _ x => x
  /-- Law 2 of R10: for every valid key, decryption undoes encryption. -/
  dec_enc : ∀ k x, keyValid k = true → dec k (enc k x) = x := by intros; rfl
deriving Inhabited

/-- The primitive the machine runs on: a free value, known only to satisfy R10 (log entry 5). -/
opaque Config.primitive : Primitive

/-- One build of CORE: its primitive and its `MAX_DATA_LEN`, `none` for no bound, which is the default (R9, R75). -/
structure Build where
  prim : Primitive
  maxDataLen : Option Nat := none

/-- The build `exec`, `step` and `core` run on: any lawful primitive, and the model default of R9 for `MAX_DATA_LEN`, no
bound.  DESIGN CHOICE (log entry 6).  The machine of every other build is `execOn`, `stepOn` and `coreOn`
(Machine/Builds.lean). -/
def Config.build : Build := { prim := Config.primitive, maxDataLen := none }

end Sys2Proof
end

