-- ==== Sys2Proof/Machine/Operands.lean ====
section
/-! DEFINITION. Every operand form: how a byte sequence splits into full blocks and a tail (20_memory.md R52), the
block XOR and the counter incrementer (40_block_utilities.md R100 to R102), the big-endian reading of a block
(R51), CBC padding (44_cbc.md R141), and which DATA a build carries (30_encoding.md R75). -/

namespace Sys2Proof

/-- `n_full(s)`: the number of full blocks (00_scope.md §4). -/
def nFull (s : ByteSeq) : Nat := s.length / 16

/-- `tail_len(s)`: the length of the final partial chunk, 0 to 15 (00_scope.md §4). -/
def tailLen (s : ByteSeq) : Nat := s.length % 16

/-- `chunk(s, i) = s[16i .. 16i+16)`, defined for `i < n_full(s)` (00_scope.md §4, R52). -/
def chunk (s : ByteSeq) (i : Nat) (h : i < nFull s) : Block :=
  ⟨(s.drop (16 * i)).take 16, by unfold nFull at h; simp; omega⟩

/-- The tail `s[16*n_full(s) .. len(s))` (R52). -/
def tailBytes (s : ByteSeq) : ByteSeq := s.drop (16 * nFull s)

theorem length_tailBytes (s : ByteSeq) : (tailBytes s).length = tailLen s := by
  simp [tailBytes, tailLen, nFull]; omega

/-- A byte sequence as a block, when it is 16 bytes long (the test of R204). -/
def Block.ofBytes? (s : ByteSeq) : Option Block :=
  if h : s.length = 16 then some ⟨s, h⟩ else none

/-- `a ^ b`: byte-wise exclusive OR of two sequences of equal length (00_scope.md §4, R100). -/
def xorBytes (a b : ByteSeq) : ByteSeq := List.zipWith (· ^^^ ·) a b

/-- `xor16(a, b)`: the block XOR combinator, lane by lane (R100). -/
def xor16 (a b : Block) : Block :=
  ⟨xorBytes a.bytes b.bytes, by simp [xorBytes, a.length_eq, b.length_eq]⟩

/-- The loop of R101 from byte `j` leftward: add 1 to byte `j` modulo 256; go on to the left only if it overflowed to
`00` and a byte is left. -/
def incFrom : Nat → ByteSeq → ByteSeq
  | 0, r => r.modify 0 (· + 1)
  | j + 1, r =>
    let r' := r.modify (j + 1) (· + 1)
    if r'[j + 1]? = some 0 then incFrom j r' else r'

theorem length_incFrom (j : Nat) (r : ByteSeq) : (incFrom j r).length = r.length := by
  induction j generalizing r with
  | zero => simp [incFrom]
  | succ j ih => simp only [incFrom]; split <;> simp [ih]

/-- `inc128(A)`: the counter incrementer, started at byte 15 (R101). -/
def inc128 (a : Block) : Block := ⟨incFrom 15 a.bytes, by rw [length_incFrom, a.length_eq]⟩

/-- `int(B)`: the block as a big-endian integer, byte 0 the most significant (00_scope.md §4, R51). -/
def Block.int (b : Block) : Nat := b.bytes.foldl (fun n x => 256 * n + x.toNat) 0

/-- `blk(n)`: the inverse of `int`, byte `j` being digit `15 - j` of `n` in base 256 (00_scope.md §4). -/
def Block.blk (n : Nat) : Block :=
  ⟨(List.range 16).map fun j => BitVec.ofNat 8 (n / 256 ^ (15 - j)), by simp⟩

/-- The CBC pad length `p = 16 - r`, from 1 to 16, with `r = tail_len(P)` (R141). -/
def padLen (p : ByteSeq) : Nat := 16 - tailLen p

/-- `LAST`: the tail of the plaintext followed by `p` bytes of value `p` (R140, R141). -/
def padBlock (p : ByteSeq) : Block :=
  ⟨tailBytes p ++ List.replicate (padLen p) (BitVec.ofNat 8 (padLen p)), by
    simp [length_tailBytes, padLen, tailLen]; omega⟩

/-- Whether a build carries this DATA: its length is at most `MAX_DATA_LEN` where that is set (R75). -/
def Build.accepts (b : Build) (data : ByteSeq) : Bool :=
  match b.maxDataLen with
  | none => true
  | some m => decide (data.length ≤ m)

end Sys2Proof
end

