-- ==== Sys2Proof/Machine/Ops.lean ====
section
/-! DEFINITION. The operations shared by the commands: the per-command registers (10_state.md R23 to R25, R35), the
primitive port (R30, R31), the loop over full blocks (R22), ending a command with a response (R27, R166), raising
an error (60_exceptions.md R208), the channel (20_memory.md R55) and reset (70_reset_and_hazards.md R230). -/

namespace Sys2Proof.Machine

open Sys2Proof

/-- A command under way: it runs on, it has raised an error, or it has read a register that holds no value. -/
inductive Progress where
  | run (s : State)
  | raised (e : StatusCode) (s : State)
  | faulted (f : Fault)
deriving DecidableEq, Repr

/-- Go on with `k` if the command is still running; a raised error ends it at once (R208). -/
def Progress.andThen (p : Progress) (k : State → Progress) : Progress :=
  match p with
  | .run s => k s
  | .raised e s => .raised e s
  | .faulted f => .faulted f

/-! ### The per-command registers -/

/-- Read `CR`; with no value there, fault (R35). -/
def readCr (s : State) (k : Block → Progress) : Progress :=
  match s.cr with
  | some v => k v
  | none => .faulted (.noValue .cr)

/-- Read `KS`; with no value there, fault (R35). -/
def readKs (s : State) (k : Block → Progress) : Progress :=
  match s.ks with
  | some v => k v
  | none => .faulted (.noValue .ks)

/-- Read `BIDX`; with no value there, fault (R35). -/
def readBidx (s : State) (k : Nat → Progress) : Progress :=
  match s.bidx with
  | some v => k v
  | none => .faulted (.noValue .bidx)

/-- Read `OUT`; with no value there, fault (R35). -/
def readOut (s : State) (k : ByteSeq → Progress) : Progress :=
  match s.out with
  | some v => k v
  | none => .faulted (.noValue .out)

/-- `CR <- v`. -/
def State.setCr (s : State) (v : Block) : State := { s with cr := some v }

/-- `KS <- v`. -/
def State.setKs (s : State) (v : Block) : State := { s with ks := some v }

/-- `BIDX <- i`. -/
def State.setBidx (s : State) (i : Nat) : State := { s with bidx := some i }

/-- `OUT <- v`. -/
def State.setOut (s : State) (v : ByteSeq) : State := { s with out := some v }

/-- Record a call on the primitive port (R30). -/
def State.logCall (s : State) (c : PrimCall) : State := { s with trace := s.trace ++ [c] }

/-- The per-command registers hold no value and the trace is empty: what every command finds (R35, R166) and what it
leaves (R23, R25, R208). -/
def State.discard (s : State) : State :=
  { s with cr := none, ks := none, bidx := none, out := none, trace := [] }

/-- The start of every ENC and DEC that passes its checks: `CR <- IV`, `OUT <- []`, `BIDX = 0` (R23, R25). -/
def State.startBlocks (s : State) (iv : Block) : State := ((s.setCr iv).setBidx 0).setOut []

/-- `emit(v)`: append to `OUT` (00_scope.md §4). -/
def emit (v : ByteSeq) (s : State) : Progress := readOut s fun o => .run (s.setOut (o ++ v))

/-! ### The primitive port -/

/-- `KS <- PrimEnc(x)` (R24, R31). -/
def primEnc (b : Build) (x : Block) (s : State) : State :=
  (s.setKs (b.prim.enc s.keyreg x)).logCall (.E x)

/-- `KS <- PrimDec(x)` (R24, R31). -/
def primDec (b : Build) (x : Block) (s : State) : State :=
  (s.setKs (b.prim.dec s.keyreg x)).logCall (.D x)

/-! ### The sequencer -/

/-- `for BIDX in 0 .. n_full(data) - 1: body(chunk(data, BIDX))`, `BIDX` moving on after each block (R22).  The first
argument bounds the number of blocks. -/
def blockLoop (data : ByteSeq) (body : Block → State → Progress) : Nat → State → Progress
  | 0, s => .run s
  | fuel + 1, s => readBidx s fun i =>
    if h : i < nFull data then
      (body (chunk data i h) s).andThen fun s' => blockLoop data body fuel (s'.setBidx (i + 1))
    else .run s

/-- Run the body on every full block of `data`. -/
def forBlocks (data : ByteSeq) (body : Block → State → Progress) (s : State) : Progress :=
  blockLoop data body (nFull data) s

/-- The tail of CFB, OFB and CTR: one more keystream block from the current `CR`, its leading bytes XORed with the
tail, `CR` not updated (R113; also R120, R130). -/
def keystreamTail (b : Build) (data : ByteSeq) (s : State) : Progress :=
  if tailLen data = 0 then .run s
  else readCr s fun cr =>
    readKs (primEnc b cr s) fun ks =>
      emit (xorBytes (ks.bytes.take (tailLen data)) (tailBytes data)) (primEnc b cr s)

/-! ### Ending a command -/

/-- The command ends: its response is returned with its trace, and the per-command registers are discarded (R23, R25,
R27, R30, R166). -/
def State.respond (s : State) (code : StatusCode) (out : ByteSeq) : State :=
  { s.discard with observed := s.observed ++ [⟨⟨code.word, out⟩, s.trace⟩] }

/-- `raise e`, the one way a command fails: the error's code with `OUT = []`, the trace of the calls made before it,
the context as it was, nothing saved and nothing pending (R208, R209). -/
def State.raise (s : State) (e : StatusCode) : State := s.respond e []

/-- The outcome of a command that has run: its response, or its fault (R166). -/
def finish : Progress → Host.Outcome State Fault Refusal
  | .run s =>
    match s.out with
    | some o => .next (s.respond .ok o)
    | none => .fault (.noValue .out)
  | .raised e s => .next (s.raise e)
  | .faulted f => .fault f

/-- An illegal command word: `IllegalCommand`, before any operand is examined (R73, R201). -/
def illegalCommand (s : State) : Host.Outcome State Fault Refusal :=
  .next (s.discard.raise .illegalCommand)

/-! ### The channel and reset -/

/-- The host's next action, taken off the channel (R55); `none` while the engine is idle. -/
def nextAction (s : State) : Option (HostAction × State) :=
  match s.host with
  | [] => none
  | a :: rest => some (a, { s with host := rest })

/-- The host issues a command that the next step takes. -/
def State.issue (s : State) (c : Command) : State := { s with host := .command c :: s.host }

/-- Reset (R230): the engine is as R36 says, and a command that was executing is gone without a response.  What
the host has yet to do and what it has already seen are the host's, not the engine's. -/
def State.applyReset (s : State) : State :=
  { State.reset with host := s.host, observed := s.observed }

end Sys2Proof.Machine
end

