-- ==== Sys2Proof/Machine/BlockUtilities.lean ====
section
/-! DEFINITION. The block utilities as commands: BXOR and CTRINC (40_block_utilities.md R103, R104).  Neither needs a
context, calls the primitive or writes any state. -/

namespace Sys2Proof.Machine

open Sys2Proof

/-- BXOR: `OUT = xor16(A, B)` (R103). -/
def execBxor (a b : Block) (s : State) : Host.Outcome State Fault Refusal :=
  .next (s.discard.respond .ok (xor16 a b).bytes)

/-- CTRINC: `OUT = inc128(A)` (R104). -/
def execCtrinc (a : Block) (s : State) : Host.Outcome State Fault Refusal :=
  .next (s.discard.respond .ok (inc128 a).bytes)

end Sys2Proof.Machine
end

