-- ==== Sys2Proof/Machine/Cbc.lean ====
section
/-! DEFINITION. The CBC engine with its padding and unpadding (44_cbc.md). -/

namespace Sys2Proof.Machine

open Sys2Proof

/-- One block of CBC encryption, the padding block included: `CR` takes the ciphertext block (R140). -/
def cbcEncBlock (b : Build) (p : Block) (s : State) : Progress :=
  readCr s fun cr =>
    readKs (primEnc b (xor16 cr p) s) fun ks =>
      (emit ks.bytes (primEnc b (xor16 cr p) s)).andThen fun s' => .run (s'.setCr ks)

/-- The final, padding-bearing block (R140); `CR` is not written after it. -/
def cbcLastBlock (b : Build) (p : ByteSeq) (s : State) : Progress :=
  readCr s fun cr =>
    readKs (primEnc b (xor16 cr (padBlock p)) s) fun ks =>
      emit ks.bytes (primEnc b (xor16 cr (padBlock p)) s)

/-- CBC encryption (R140). -/
def cbcEnc (b : Build) (iv : Block) (p : ByteSeq) (s : State) : Progress :=
  (forBlocks p (cbcEncBlock b) (s.startBlocks iv)).andThen (cbcLastBlock b p)

/-- One block of CBC decryption: `CR` takes the input block (R146). -/
def cbcDecBlock (b : Build) (c : Block) (s : State) : Progress :=
  readCr s fun cr =>
    readKs (primDec b c s) fun ks =>
      (emit (xor16 ks cr).bytes (primDec b c s)).andThen fun s' => .run (s'.setCr c)

/-- Unpadding: the last decrypted byte must lie in 1..16 and says how many bytes are cut off; no other pad byte is
examined, and an empty output has no such byte (R147, R148, R149). -/
def cbcUnpad (s : State) : Progress :=
  readOut s fun o =>
    match o.getLast? with
    | none => .raised .invalidPadding s
    | some p =>
      if 1 ≤ p.toNat ∧ p.toNat ≤ 16 then .run (s.setOut (o.take (o.length - p.toNat)))
      else .raised .invalidPadding s

/-- CBC decryption (R145, R146). -/
def cbcDec (b : Build) (iv : Block) (c : ByteSeq) (s : State) : Progress :=
  if c.length % 16 = 0 then (forBlocks c (cbcDecBlock b) (s.startBlocks iv)).andThen cbcUnpad
  else .raised .invalidCiphertextLength s

end Sys2Proof.Machine
end

