-- ==== Sys2Proof/Machine/Cfb.lean ====
section
/-! DEFINITION. The CFB engine (41_cfb.md): the register takes the ciphertext block in both directions. -/

namespace Sys2Proof.Machine

open Sys2Proof

/-- One full block of CFB encryption: `CR` takes the output block (R110, R111). -/
def cfbEncBlock (b : Build) (p : Block) (s : State) : Progress :=
  readCr s fun cr =>
    readKs (primEnc b cr s) fun ks =>
      (emit (xor16 ks p).bytes (primEnc b cr s)).andThen fun s' => .run (s'.setCr (xor16 ks p))

/-- CFB encryption (R110). -/
def cfbEnc (b : Build) (iv : Block) (p : ByteSeq) (s : State) : Progress :=
  (forBlocks p (cfbEncBlock b) (s.startBlocks iv)).andThen (keystreamTail b p)

/-- One full block of CFB decryption: `CR` takes the input block (R112, R111). -/
def cfbDecBlock (b : Build) (c : Block) (s : State) : Progress :=
  readCr s fun cr =>
    readKs (primEnc b cr s) fun ks =>
      (emit (xor16 ks c).bytes (primEnc b cr s)).andThen fun s' => .run (s'.setCr c)

/-- CFB decryption (R112). -/
def cfbDec (b : Build) (iv : Block) (c : ByteSeq) (s : State) : Progress :=
  (forBlocks c (cfbDecBlock b) (s.startBlocks iv)).andThen (keystreamTail b c)

end Sys2Proof.Machine
end

