-- ==== Sys2Proof/Machine/Ctr.lean ====
section
/-! DEFINITION. The CTR engine (43_ctr.md): the register is a big-endian 128-bit counter that wraps. -/

namespace Sys2Proof.Machine

open Sys2Proof

/-- One full block of CTR (R130). -/
def ctrBlock (b : Build) (x : Block) (s : State) : Progress :=
  readCr s fun cr =>
    readKs (primEnc b cr s) fun ks =>
      (emit (xor16 ks x).bytes (primEnc b cr s)).andThen fun s' => .run (s'.setCr (inc128 cr))

/-- The CTR transform, for ENC and DEC alike (R130, R132). -/
def ctrXform (b : Build) (iv : Block) (x : ByteSeq) (s : State) : Progress :=
  (forBlocks x (ctrBlock b) (s.startBlocks iv)).andThen (keystreamTail b x)

end Sys2Proof.Machine
end

