-- ==== Sys2Proof/Machine/Ofb.lean ====
section
/-! DEFINITION. The OFB engine (42_ofb.md): the register takes the keystream block (90_conflicts.md C1). -/

namespace Sys2Proof.Machine

open Sys2Proof

/-- One full block of OFB (R120). -/
def ofbBlock (b : Build) (x : Block) (s : State) : Progress :=
  readCr s fun cr =>
    readKs (primEnc b cr s) fun ks =>
      (emit (xor16 ks x).bytes (primEnc b cr s)).andThen fun s' => .run (s'.setCr ks)

/-- The OFB transform, for ENC and DEC alike (R120, R121). -/
def ofbXform (b : Build) (iv : Block) (x : ByteSeq) (s : State) : Progress :=
  (forBlocks x (ofbBlock b) (s.startBlocks iv)).andThen (keystreamTail b x)

end Sys2Proof.Machine
end

