-- ==== Sys2Proof/Machine/Context.lean ====
section
/-! DEFINITION. The context and its dispatch: NEWCTX, ENC and DEC (45_context_dispatch.md).  Each is written for any
build `b` (`newctxOn`, `encOn`, `decOn`); the machine runs them on `Config.build`. -/

namespace Sys2Proof.Machine

open Sys2Proof

/-- A new context is constructed: `KEYREG`, `MODE` and `CTXV` are written together (R160). -/
def State.construct (s : State) (mode : CipherMode) (key : ByteSeq) : State :=
  { s with ctxv := true, mode := mode, keyreg := key }

/-- NEWCTX on a build: the primitive accepts the key or `InvalidKey` is raised and the old context stays (R160, R161). -/
def newctxOn (b : Build) (mode : CipherMode) (key : ByteSeq) (s : State) : Host.Outcome State Fault Refusal :=
  .next (if b.prim.keyValid key then (s.discard.construct mode key).respond .ok []
    else s.discard.raise .invalidKey)

/-- What ENC runs in each mode (R164). -/
def encEngine (b : Build) : CipherMode → Block → ByteSeq → State → Progress
  | .cfb => cfbEnc b
  | .ofb => ofbXform b
  | .ctr => ctrXform b
  | .cbc => cbcEnc b

/-- What DEC runs in each mode (R164). -/
def decEngine (b : Build) : CipherMode → Block → ByteSeq → State → Progress
  | .cfb => cfbDec b
  | .ofb => ofbXform b
  | .ctr => ctrXform b
  | .cbc => cbcDec b

/-- The checks ENC and DEC share, in the order of R207, before the engine `MODE` selects runs (R162, R163). -/
def throughContext (engine : CipherMode → Block → ByteSeq → State → Progress) (iv data : ByteSeq) (s : State) :
    Progress :=
  if s.ctxv then
    match Block.ofBytes? iv with
    | some v => engine s.mode v data s
    | none => .raised .invalidIVLength s
  else .raised .noContext s

/-- ENC on a build (R162, R75). -/
def encOn (b : Build) (iv data : ByteSeq) (s : State) : Host.Outcome State Fault Refusal :=
  if b.accepts data then finish (throughContext (encEngine b) iv data s.discard) else .refused .dataTooLong

/-- DEC on a build (R163, R75). -/
def decOn (b : Build) (iv data : ByteSeq) (s : State) : Host.Outcome State Fault Refusal :=
  if b.accepts data then finish (throughContext (decEngine b) iv data s.discard) else .refused .dataTooLong

/-- NEWCTX (R160). -/
def execNewctx (mode : CipherMode) (key : ByteSeq) (s : State) : Host.Outcome State Fault Refusal :=
  newctxOn Config.build mode key s

/-- ENC (R162). -/
def execEnc (iv data : ByteSeq) (s : State) : Host.Outcome State Fault Refusal := encOn Config.build iv data s

/-- DEC (R163). -/
def execDec (iv data : ByteSeq) (s : State) : Host.Outcome State Fault Refusal := decOn Config.build iv data s

end Sys2Proof.Machine
end

