-- ==== Sys2Proof/Syntax.lean ====
section
/-! DEFINITION. The commands of CORE, one constructor per row of spec/opcode_table.json, each with the operands
R74 gives it. -/

namespace Sys2Proof

/-- A decoded command with its operands (30_encoding.md R71, R74, R79). -/
inductive Instr where
  /-- NEWCTX: construct the context from a mode and a key (R160). -/
  | newctx (mode : CipherMode) (key : ByteSeq)
  /-- ENC: encrypt through the context (R162). -/
  | enc (iv data : ByteSeq)
  /-- DEC: decrypt through the context (R163). -/
  | dec (iv data : ByteSeq)
  /-- BXOR: the block XOR combinator (R103). -/
  | bxor (a b : Block)
  /-- CTRINC: the counter incrementer (R104). -/
  | ctrinc (a : Block)
deriving DecidableEq, Repr

end Sys2Proof
end

