-- ==== Sys2Proof/Machine/Dispatch.lean ====
section
/-! DEFINITION. One arm per constructor of Instr (45_context_dispatch.md R166). -/

namespace Sys2Proof.Machine

def exec (i : Instr) (s : State) : Host.Outcome State Fault Refusal :=
  match i with
  | .newctx mode key => Sys2Proof.Machine.execNewctx mode key s
  | .enc iv data => Sys2Proof.Machine.execEnc iv data s
  | .dec iv data => Sys2Proof.Machine.execDec iv data s
  | .bxor a b => Sys2Proof.Machine.execBxor a b s
  | .ctrinc a => Sys2Proof.Machine.execCtrinc a s

end Sys2Proof.Machine
end

