-- ==== Sys2Proof/Decode.lean ====
section
/-! DEFINITION. The decoder, total on every 32-bit word, and the encoder (30_encoding.md R70 to R74, R79). -/

namespace Sys2Proof

/-- The 2-bit code of a mode (R28). -/
def CipherMode.toBits : CipherMode → BitVec 2
  | .cfb => 0b00#2
  | .ofb => 0b01#2
  | .ctr => 0b10#2
  | .cbc => 0b11#2

/-- The mode of a 2-bit code; every code is one (R28, R72). -/
def CipherMode.ofBits (m : BitVec 2) : CipherMode :=
  if m = 0b00#2 then .cfb else if m = 0b01#2 then .ofb else if m = 0b10#2 then .ctr else .cbc

/-- `OPC`, bits [3:0] of the command word (R70). -/
def opcField (w : BitVec 32) : BitVec 4 := w.extractLsb' 0 4

/-- `MODE`, bits [5:4] of the command word (R70). -/
def modeField (w : BitVec 32) : BitVec 2 := w.extractLsb' 4 2

/-- `RSVD`, bits [31:6] of the command word (R70). -/
def rsvdField (w : BitVec 32) : BitVec 26 := w.extractLsb' 6 26

/-- Why a command word is illegal (R73).  Each gives the same response, `IllegalCommand`. -/
inductive IllegalWord where
  /-- `RSVD` is not 0. -/
  | reservedBits
  /-- `OPC` is `0x0` or in `0x6` to `0xF`. -/
  | reservedOpcode
  /-- `MODE` is not `00` in a command other than NEWCTX. -/
  | modeOutsideNewctx
deriving DecidableEq, Repr

/-- A command other than NEWCTX: legal when its `MODE` field is `00` (R72). -/
def plainCommand (w : BitVec 32) (i : Instr) : Except IllegalWord Instr :=
  if modeField w = 0 then .ok i else .error .modeOutsideNewctx

/-- The decoder of R79, with the operands the opcode takes read from their channels (R74, R75, R166). -/
def decode (c : Command) : Except IllegalWord Instr :=
  if rsvdField c.word = 0 then
    if opcField c.word = 0x1#4 then .ok (.newctx (CipherMode.ofBits (modeField c.word)) c.ops.key)
    else if opcField c.word = 0x2#4 then plainCommand c.word (.enc c.ops.iv c.ops.data)
    else if opcField c.word = 0x3#4 then plainCommand c.word (.dec c.ops.iv c.ops.data)
    else if opcField c.word = 0x4#4 then plainCommand c.word (.bxor c.ops.a c.ops.b)
    else if opcField c.word = 0x5#4 then plainCommand c.word (.ctrinc c.ops.a)
    else .error .reservedOpcode
  else .error .reservedBits

/-- The command word of an instruction (R70, R71, R79). -/
def encodeWord : Instr → BitVec 32
  | .newctx m _ => 0x00000001#32 ||| (m.toBits.setWidth 32 <<< 4)
  | .enc _ _ => 0x00000002#32
  | .dec _ _ => 0x00000003#32
  | .bxor _ _ => 0x00000004#32
  | .ctrinc _ => 0x00000005#32

/-- The operand channels of an instruction; those its opcode does not take are at zero (R74). -/
def encodeOps : Instr → Operands
  | .newctx _ key => { Operands.zero with key := key }
  | .enc iv data => { Operands.zero with iv := iv, data := data }
  | .dec iv data => { Operands.zero with iv := iv, data := data }
  | .bxor a b => { Operands.zero with a := a, b := b }
  | .ctrinc a => { Operands.zero with a := a }

/-- The encoder: the command word and the operands of an instruction. -/
def encode (i : Instr) : Command := ⟨encodeWord i, encodeOps i⟩

/-- The command whose word is `w` and whose operands are all zero. -/
def tableCommand (w : Nat) : Command := ⟨BitVec.ofNat 32 w, Operands.zero⟩

/-- What the decoder reads from the table word `w`, its operand channels at zero.  A command word is one
32-bit value, to which no byte order applies (R70). -/
def decodeTableWord (nbits w : Nat) : Option Instr :=
  if nbits ≤ 32 ∧ w < 2 ^ 32 then (decode (tableCommand w)).toOption else none

end Sys2Proof
end

