-- ==== Sys2Proof/Machine/Sequencer.lean ====
section
/-! DEFINITION. The top-level step, given what runs a decoded command (45_context_dispatch.md R166; 20_memory.md R55):
the machine of every build is this sequencer over that build's commands. -/

namespace Sys2Proof.Machine

open Sys2Proof

/-- Decode a command and run it; an illegal word is answered with `IllegalCommand` (R166). -/
def runWith (run : Instr → State → Host.Outcome State Fault Refusal) (c : Command) (s : State) :
    Host.Outcome State Fault Refusal :=
  match decode c with
  | .ok i => run i s
  | .error _ => illegalCommand s

/-- One atomic transition: the host's next action, carried out whole (R55, R166; a reset, R230, log entry 4).  DEDUCED
(log entry 3): while the engine is idle (R216) a step exists and answers the same state. -/
def stepWith (run : Instr → State → Host.Outcome State Fault Refusal) (s : State) :
    Host.Outcome State Fault Refusal :=
  match nextAction s with
  | none => .next s
  | some (.reset, s') => .next s'.applyReset
  | some (.command c, s') => runWith run c s'

end Sys2Proof.Machine
end

