-- ==== Sys2Proof/Machine/Step.lean ====
section
/-! DEFINITION. One step: CORE takes the host's next action off the channel and carries it out whole (20_memory.md
R55; 45_context_dispatch.md R166).  With none there it is idle (60_exceptions.md R216; log
entry 3). -/

namespace Sys2Proof.Machine

open Sys2Proof

/-- Decode a command and run it; an illegal word is answered with `IllegalCommand` (R166). -/
def runCommand (c : Command) (s : State) : Host.Outcome State Fault Refusal := runWith exec c s

/-- One atomic transition (R55, R166, R216, R230). -/
def step (s : State) : Host.Outcome State Fault Refusal := stepWith exec s

/-- The host issues the table word `w` next, its operand channels at zero (log entries 2 and 8). -/
def State.withFetchWord (s : State) (_nbits w : Nat) : State := s.issue (tableCommand w)

end Sys2Proof.Machine
end

