-- ==== Sys2Proof/Machine/Assembler.lean ====
section
/-! DEFINITION. The spec's assembler (30_encoding.md R77, R78) at the level of one parsed line: operands as hex or ASCII
literals or named host buffers, the three pseudo-instructions, the command a line assembles to, and the host's
bookkeeping of `-> <out>`.  It is the host's tool: CORE itself never sees a line. -/

namespace Sys2Proof.Asm

/-- The host's named buffers, a name's first entry being the one in force. -/
abbrev Buffers := List (String × ByteSeq)

/-- An operand as written (R77): `h'<digits>'`, `"<chars>"` or a buffer's name. -/
inductive Operand where
  | hex (digits : List Char)
  | ascii (chars : List Char)
  | buffer (name : String)
deriving DecidableEq, Repr

/-- A line, comment and layout stripped (R77), the pseudo-instructions of R78 among the forms. -/
inductive Line where
  | newctx (mode : CipherMode) (key : Operand)
  | enc (iv data : Operand) (out : String)
  | dec (iv data : Operand) (out : String)
  | bxor (a b : Operand) (out : String)
  | ctrinc (a : Operand) (out : String)
  /-- Pseudo: `XFORM <iv>, <data> -> <out>`. -/
  | xform (iv data : Operand) (out : String)
  /-- Pseudo: `NEWCTX <key>, <mode>`. -/
  | newctxKeyFirst (key : Operand) (mode : CipherMode)
  /-- Pseudo: `CTXINIT.<mode> <key>`. -/
  | ctxinit (mode : CipherMode) (key : Operand)
deriving DecidableEq, Repr

/-- The value of a hex digit.  DESIGN CHOICE (log entry 14): of either case. -/
def hexDigit? (c : Char) : Option Nat :=
  if '0'.toNat ≤ c.toNat ∧ c.toNat ≤ '9'.toNat then some (c.toNat - '0'.toNat)
  else if 'a'.toNat ≤ c.toNat ∧ c.toNat ≤ 'f'.toNat then some (c.toNat - 'a'.toNat + 10)
  else if 'A'.toNat ≤ c.toNat ∧ c.toNat ≤ 'F'.toNat then some (c.toNat - 'A'.toNat + 10)
  else none

/-- The bytes of a hex literal, two digits per byte (R77). -/
def hexBytes? : List Char → Option ByteSeq
  | [] => some []
  | [_] => none
  | hi :: lo :: rest => do
    let h ← hexDigit? hi
    let l ← hexDigit? lo
    let bytes ← hexBytes? rest
    pure (BitVec.ofNat 8 (16 * h + l) :: bytes)

/-- The bytes of a string literal in ASCII, `\n` standing for the byte 0x0A (R77).  The spec gives no other escape.
DESIGN CHOICE (log entry 14): a backslash that no `n` follows is the character itself, the byte 0x5C, and a character
outside ASCII has no byte. -/
def asciiBytes? : List Char → Option ByteSeq
  | [] => some []
  | '\\' :: 'n' :: rest => (asciiBytes? rest).map (0x0A#8 :: ·)
  | c :: rest => if c.toNat < 128 then (asciiBytes? rest).map (BitVec.ofNat 8 c.toNat :: ·) else none

/-- The value of an operand.  DESIGN CHOICE (log entry 14): `none` for a malformed literal or an unknown buffer. -/
def Operand.bytes? (bufs : Buffers) : Operand → Option ByteSeq
  | .hex digits => hexBytes? digits
  | .ascii chars => asciiBytes? chars
  | .buffer name => bufs.lookup name

/-- The value of a Block operand: 16 bytes (R74). -/
def Operand.block? (bufs : Buffers) (o : Operand) : Option Block := (o.bytes? bufs).bind Block.ofBytes?

/-- The expansion of the pseudo-instructions (R78); every other line is itself. -/
def expand : Line → Line
  | .xform iv data out => .enc iv data out
  | .newctxKeyFirst key mode => .newctx mode key
  | .ctxinit mode key => .newctx mode key
  | line => line

/-- The instruction of an expanded line; a pseudo-instruction has none of its own. -/
def instr? (bufs : Buffers) : Line → Option Instr
  | .newctx mode key => (key.bytes? bufs).map (.newctx mode)
  | .enc iv data _ => do pure (.enc (← iv.bytes? bufs) (← data.bytes? bufs))
  | .dec iv data _ => do pure (.dec (← iv.bytes? bufs) (← data.bytes? bufs))
  | .bxor a b _ => do pure (.bxor (← a.block? bufs) (← b.block? bufs))
  | .ctrinc a _ => (a.block? bufs).map .ctrinc
  | .xform _ _ _ => none
  | .newctxKeyFirst _ _ => none
  | .ctxinit _ _ => none

/-- The command a line assembles to (R77, R78). -/
def assemble (bufs : Buffers) (line : Line) : Option Command := (instr? bufs (expand line)).map encode

/-- The buffer a line's `-> <out>` names; NEWCTX names none. -/
def outBuffer? : Line → Option String
  | .enc _ _ out => some out
  | .dec _ _ out => some out
  | .bxor _ _ out => some out
  | .ctrinc _ out => some out
  | .xform _ _ out => some out
  | .newctx _ _ => none
  | .newctxKeyFirst _ _ => none
  | .ctxinit _ _ => none

/-- The host's bookkeeping when the line's response arrives: its buffer receives `OUT` (R77). -/
def receive (bufs : Buffers) (line : Line) (out : ByteSeq) : Buffers :=
  match outBuffer? line with
  | some name => (name, out) :: bufs
  | none => bufs

end Sys2Proof.Asm
end

