-- ==== Sys2Proof/Machine/Builds.lean ====
section
/-! DEFINITION. The machine of every build of CORE: its primitive, its key test and its `MAX_DATA_LEN` are arguments
(00_scope.md R9; 30_encoding.md R75).  `exec`, `step` and `core` are the machine of `Config.build`. -/

namespace Sys2Proof.Machine

open Sys2Proof

/-- What a decoded command does on build `b` (45_context_dispatch.md R166). -/
def execOn (b : Build) (i : Instr) (s : State) : Host.Outcome State Fault Refusal :=
  match i with
  | .newctx mode key => newctxOn b mode key s
  | .enc iv data => encOn b iv data s
  | .dec iv data => decOn b iv data s
  | .bxor x y => execBxor x y s
  | .ctrinc x => execCtrinc x s

/-- One step on build `b` (R55, R166). -/
def stepOn (b : Build) (s : State) : Host.Outcome State Fault Refusal := stepWith (execOn b) s

/-- The machine of build `b`; what reset leaves does not depend on the build (10_state.md R36). -/
def coreOn (b : Build) : Host.Core :=
  { State := State, Fault := Fault, Refusal := Refusal, step := stepOn b, reset := State.reset }

end Sys2Proof.Machine
end

