-- ==== Sys2Proof/WellFormed.lean ====
section
/-! DEFINITION. Which commands a build has a transition for.  Every operand shape R74 asks for is in the types (a mode
is one of four, `A` and `B` are blocks, KEY, IV and DATA may have any length), so the one check left is
`MAX_DATA_LEN` of the build (30_encoding.md R75). -/

namespace Sys2Proof

/-- The command is one the build carries: the DATA of an ENC or DEC is within `MAX_DATA_LEN` (R75). -/
def WellFormed (b : Build) (i : Instr) : Bool :=
  match i with
  | .newctx _ _ => true
  | .enc _ data => b.accepts data
  | .dec _ data => b.accepts data
  | .bxor _ _ => true
  | .ctrinc _ => true

end Sys2Proof
end

