-- ==== Sys2Proof/Safety.lean ====
section
/-! DEFINITION. The terms the claims use: what a completed command leaves, what a state between commands looks like,
and the shape of a keystream result. -/

namespace Sys2Proof.Machine

open Sys2Proof

/-- What a completed command leaves: one more observation, no per-command register, and the rest of the state as it
was (R23, R25, R27, R30). -/
def State.completed (s : State) (code : StatusCode) (out : ByteSeq) (trace : List PrimCall) : State :=
  { s with
    cr := none, ks := none, bidx := none, out := none, trace := []
    observed := s.observed ++ [⟨⟨code.word, out⟩, trace⟩] }

/-- No per-command register holds a value (R35, R36). -/
def State.Idle (s : State) : Prop :=
  s.cr = none ∧ s.ks = none ∧ s.bidx = none ∧ s.out = none ∧ s.trace = []

/-- A response the spec allows: reserved status bits 0, `CODE` at most 6, no output with an error (R27, R200). -/
def Response.Legal (r : Response) : Prop :=
  statusReservedField r.status = 0 ∧ (statusCodeField r.status).toNat ≤ 6 ∧ (r.status ≠ 0 → r.out = [])

/-- What holds of a state between commands on build `b`: it is idle, a constructed context holds a key the primitive
accepts (R31, R160), and every response so far was legal. -/
def State.Inv (b : Build) (s : State) : Prop :=
  s.Idle ∧ (s.ctxv = true → b.prim.keyValid s.keyreg = true) ∧ ∀ o ∈ s.observed, o.response.Legal

/-- Two states with the same persistent state (R20). -/
def SameContext (s t : State) : Prop := s.ctxv = t.ctxv ∧ s.mode = t.mode ∧ s.keyreg = t.keyreg

/-- The command `i` answers in `t` as it does in `s`: where it completes in one it completes in the other, with the
same response and the same trace. -/
def AnswersAlike (i : Instr) (s t : State) : Prop :=
  ∀ s', exec i s = .next s' →
    ∃ t' o, exec i t = .next t' ∧ s'.observed = s.observed ++ [o] ∧ t'.observed = t.observed ++ [o]

/-- Bytes `[16i .. 16i+16)` of a sequence. -/
def slice (s : ByteSeq) (i : Nat) : ByteSeq := (s.drop (16 * i)).take 16

/-- `out` is `data` under the keystream whose block `i` is `E(inputs[i])`: as many primitive calls as there are full
blocks and tails, and byte `j` of the output is byte `j` of the data XORed with byte `j mod 16` of keystream block
`j / 16`, so that a tail takes the leading bytes (R110, R113, R114). -/
def KeystreamResult (E : Block → Block) (inputs : List Block) (data out : ByteSeq) : Prop :=
  out.length = data.length ∧
  inputs.length = nFull data + (if 0 < tailLen data then 1 else 0) ∧
  ∀ j < data.length, ∃ x k d, inputs[j / 16]? = some x ∧ (E x).bytes[j % 16]? = some k ∧ data[j]? = some d ∧
    out[j]? = some (k ^^^ d)

/-- The plaintext with its pad: `p` bytes of value `p`, from 1 to 16 (R141). -/
def padded (p : ByteSeq) : ByteSeq := p ++ List.replicate (16 - p.length % 16) (BitVec.ofNat 8 (16 - p.length % 16))

/-- The last decrypted byte is a pad length (R147). -/
abbrev GoodPad (p : Byte) : Prop := 1 ≤ p.toNat ∧ p.toNat ≤ 16

/-- The operands of `i` are those on the channels its opcode takes (R74). -/
def TakesOperands (i : Instr) (ops : Operands) : Prop :=
  match i with
  | .newctx _ key => ops.key = key
  | .enc iv data => ops.iv = iv ∧ ops.data = data
  | .dec iv data => ops.iv = iv ∧ ops.data = data
  | .bxor a b => ops.a = a ∧ ops.b = b
  | .ctrinc a => ops.a = a

/-- The first error of R207's order that applies before any primitive call: the word, the context, the IV, the CBC
ciphertext length.  `none` where none of them applies. -/
def firstError (c : Command) (s : State) : Option StatusCode :=
  match decode c with
  | .error _ => some .illegalCommand
  | .ok (.enc iv _) =>
    if s.ctxv = false then some .noContext
    else if iv.length ≠ 16 then some .invalidIVLength
    else none
  | .ok (.dec iv data) =>
    if s.ctxv = false then some .noContext
    else if iv.length ≠ 16 then some .invalidIVLength
    else if s.mode = .cbc ∧ data.length % 16 ≠ 0 then some .invalidCiphertextLength
    else none
  | .ok (.newctx _ _) => none
  | .ok (.bxor _ _) => none
  | .ok (.ctrinc _) => none

/-- The next command is an ENC or DEC whose DATA is longer than the bound of build `b` (R75). -/
def State.NextDataTooLong (b : Build) (s : State) : Prop :=
  ∃ c rest iv data m, s.host = .command c :: rest ∧
    (decode c = .ok (.enc iv data) ∨ decode c = .ok (.dec iv data)) ∧ b.maxDataLen = some m ∧ m < data.length

/-- The number of `E` calls of a trace. -/
def encCalls (tr : List PrimCall) : Nat := tr.countP fun c => match c with | .E _ => true | .D _ => false

/-- The number of `D` calls of a trace. -/
def decCalls (tr : List PrimCall) : Nat := tr.countP fun c => match c with | .E _ => false | .D _ => true

end Sys2Proof.Machine
end

