-- ==== Sys2Proof/Certificates/Slice0/Obligations.lean ====
section
/-! DEFINITION. The statements for the provers.  `exec` runs on `Config.build`, whose primitive is any lawful one and
whose DATA has no bound; `encOn b` and `decOn b` are ENC and DEC on any build `b`. -/

open Sys2Proof Sys2Proof.Machine

/-! ### Decoding and encoding -/

/-- R79: the decoder accepts the eight legal words, reading from each the command the table gives it with the operands
on its channels, and no other word. -/
def Obligations.DecodeIsTheOpcodeTable : Prop :=
  ∀ (c : Command) (i : Instr), decode c = .ok i ↔
    (c.word = 0x00000001#32 ∧ i = .newctx .cfb c.ops.key) ∨ (c.word = 0x00000011#32 ∧ i = .newctx .ofb c.ops.key) ∨
    (c.word = 0x00000021#32 ∧ i = .newctx .ctr c.ops.key) ∨ (c.word = 0x00000031#32 ∧ i = .newctx .cbc c.ops.key) ∨
    (c.word = 0x00000002#32 ∧ i = .enc c.ops.iv c.ops.data) ∨ (c.word = 0x00000003#32 ∧ i = .dec c.ops.iv c.ops.data) ∨
    (c.word = 0x00000004#32 ∧ i = .bxor c.ops.a c.ops.b) ∨ (c.word = 0x00000005#32 ∧ i = .ctrinc c.ops.a)

/-- Words written out from R79 decode to the commands they stand for.  That they come with empty and zero operands is the
model's choice (log entry 8). -/
def Obligations.SpecWordsDecodeToTheirCommands : Prop :=
  decodeTableWord 32 0x01 = some (.newctx .cfb []) ∧ decodeTableWord 32 0x11 = some (.newctx .ofb []) ∧
  decodeTableWord 32 0x21 = some (.newctx .ctr []) ∧ decodeTableWord 32 0x31 = some (.newctx .cbc []) ∧
  decodeTableWord 32 0x02 = some (.enc [] []) ∧ decodeTableWord 32 0x03 = some (.dec [] []) ∧
  decodeTableWord 32 0x04 = some (.bxor Block.zero Block.zero) ∧ decodeTableWord 32 0x05 = some (.ctrinc Block.zero) ∧
  decodeTableWord 32 0x12 = none ∧ decodeTableWord 32 0x43 = none ∧ decodeTableWord 32 0x80000001 = none

/-- Decode and encode agree on every instruction and every operand, and each instruction has one command word: a
command decodes to `i` exactly when it carries the word of `i` and the operands of `i`. -/
def Obligations.DecodeInvertsEncode : Prop :=
  (∀ i : Instr, decode (encode i) = .ok i) ∧
  ∀ (c : Command) (i : Instr), decode c = .ok i ↔ c.word = (encode i).word ∧ TakesOperands i c.ops

/-- R73, R201: a word with a reserved opcode, a nonzero reserved field, or a nonzero `MODE` outside NEWCTX is answered
with `IllegalCommand`, with no output, an empty trace and no other change. -/
def Obligations.IllegalWordIsAnsweredAndChangesNothing : Prop :=
  ∀ (s : State) (w : BitVec 32) (ops : Operands) (rest : List HostAction),
    s.host = .command ⟨w, ops⟩ :: rest →
    (w.toNat % 16 = 0 ∨ 6 ≤ w.toNat % 16 ∨ w.toNat / 64 ≠ 0 ∨ (w.toNat / 16 % 4 ≠ 0 ∧ w.toNat % 16 ≠ 1)) →
    step s = .next ({ s with host := rest }.completed .illegalCommand [] [])

/-- R78: the three pseudo-instructions assemble to what they expand to. -/
def Obligations.PseudoInstructionsAssembleToTheirExpansions : Prop :=
  ∀ (bufs : Asm.Buffers) (x y : Asm.Operand) (m : CipherMode) (out : String),
    Asm.assemble bufs (.xform x y out) = Asm.assemble bufs (.enc x y out) ∧
    Asm.assemble bufs (.newctxKeyFirst x m) = Asm.assemble bufs (.newctx m x) ∧
    Asm.assemble bufs (.ctxinit m x) = Asm.assemble bufs (.newctx m x)

/-! ### The step -/

/-- R166, on the model's list of host actions (log entry 2): a step whose next command decodes to `i` is `exec i` once
the command is off the channel. -/
def Obligations.StepRunsTheDecodedCommand : Prop :=
  ∀ (s : State) (c : Command) (rest : List HostAction) (i : Instr),
    s.host = .command c :: rest → decode c = .ok i → step s = exec i { s with host := rest }

/-- The model's reading of R216 (log entry 3, DEDUCED; the rule names no idle transition): with nothing on the channel a
step exists and answers the same state. -/
def Obligations.IdleEngineKeepsItsState : Prop :=
  ∀ s : State, s.host = [] → step s = .next s

/-- R230, with log entry 4 for what the model keeps of the host: a reset takes one step, leaves no context, no
per-command value and no response of its own. -/
def Obligations.ResetActionClearsTheEngine : Prop :=
  ∀ (s : State) (rest : List HostAction), s.host = .reset :: rest →
    ∃ t, step s = .next t ∧ t.ctxv = false ∧ t.Idle ∧ t.host = rest ∧ t.observed = s.observed

/-- R36: after reset there is no context, no command executing and nothing on the channel, and no command's answer
depends on what `MODE` and `KEYREG` hold. The empty `observed` says that no response is pending. -/
def Obligations.ResetLeavesNoContextAndIdleChannel : Prop :=
  State.reset.ctxv = false ∧ State.reset.Idle ∧ State.reset.host = [] ∧ State.reset.observed = [] ∧
  ∀ (m : CipherMode) (k : ByteSeq) (i : Instr), AnswersAlike i State.reset { State.reset with mode := m, keyreg := k }

/-- R55, on the model's list of host actions (log entry 2) and its record of responses (log entry 12): commands are
answered one at a time in issue order: after `n` steps the first `n` commands have been taken and have given `n`
responses, appended after the earlier ones. -/
def Obligations.CommandsAreAnsweredInIssueOrder : Prop :=
  ∀ (cs : List Command) (s : State), s.host = cs.map .command →
    ∀ n ≤ cs.length, ∃ t os, Sys2Proof.core.run n s = .next t ∧ t.host = (cs.drop n).map .command ∧
      t.observed = s.observed ++ os ∧ os.length = n

/-! ### The block utilities -/

/-- R103: BXOR needs no context, returns the XOR of its blocks lane by lane, and changes no state. -/
def Obligations.BxorReturnsTheLaneXor : Prop :=
  (∀ ops : Operands, decode ⟨0x00000004#32, ops⟩ = .ok (.bxor ops.a ops.b)) ∧
  ∀ (a b : Block) (s : State), ∃ out : Block, exec (.bxor a b) s = .next (s.completed .ok out.bytes []) ∧
    ∀ j < 16, ∃ x y, a.bytes[j]? = some x ∧ b.bytes[j]? = some y ∧ out.bytes[j]? = some (x ^^^ y)

/-- R100: the block XOR works lane by lane on blocks, and on the lanes they have for two sequences of equal length,
and obeys its four laws. -/
def Obligations.BlockXorLaws : Prop :=
  (∀ (a b : Block), ∀ j < 16, ∃ x y, a.bytes[j]? = some x ∧ b.bytes[j]? = some y ∧
    (xor16 a b).bytes[j]? = some (x ^^^ y)) ∧
  (∀ a b : ByteSeq, a.length = b.length → (xorBytes a b).length = a.length ∧
    ∀ (j : Nat) (x y : Byte), a[j]? = some x → b[j]? = some y → (xorBytes a b)[j]? = some (x ^^^ y)) ∧
  ∀ a b : Block, xor16 a a = Block.zero ∧ xor16 a Block.zero = a ∧ xor16 a b = xor16 b a ∧
    xor16 (xor16 a b) b = a

/-- R102, R104: CTRINC needs no context, returns its block plus 1 modulo 2^128 in big-endian order, and changes no
state. -/
def Obligations.CtrincAddsOneModulo128Bits : Prop :=
  (∀ ops : Operands, decode ⟨0x00000005#32, ops⟩ = .ok (.ctrinc ops.a)) ∧
  ∀ (a : Block) (s : State),
    exec (.ctrinc a) s = .next (s.completed .ok (Block.blk ((a.int + 1) % 2 ^ 128)).bytes [])

/-- R101: a byte is incremented modulo 256 exactly when every byte to its right overflowed; the others are unchanged.
-/
def Obligations.IncrementCarriesThroughTrailingFF : Prop :=
  ∀ (a : Block) (j : Nat) (x : Byte), a.bytes[j]? = some x →
    ((∀ k, j < k → k < 16 → a.bytes[k]? = some 0xFF#8) → (inc128 a).bytes[j]? = some (x + 1)) ∧
    ((∃ k, j < k ∧ k < 16 ∧ a.bytes[k]? ≠ some 0xFF#8) → (inc128 a).bytes[j]? = some x)

/-- 00_scope.md §4: `int` is the sum of the digits in base 256, byte 0 the most significant, and `blk` is its inverse.
-/
def Obligations.BlkInvertsTheBigEndianInteger : Prop :=
  (∀ b : Block, b.int = ((List.range 16).map fun j => (b.bytes.getD j 0).toNat * 256 ^ (15 - j)).sum) ∧
  (∀ b : Block, Block.blk b.int = b) ∧ ∀ n < 2 ^ 128, (Block.blk n).int = n

/-- R52: byte `j` of full block `i` is byte `16i + j` of the sequence, and the tail is what follows the full blocks.
-/
def Obligations.FullBlocksAndTailAreTheBytesInOrder : Prop :=
  ∀ s : ByteSeq,
    (∀ (i : Nat) (h : i < nFull s), ∀ j < 16, (chunk s i h).bytes[j]? = s[16 * i + j]?) ∧
    (tailBytes s).length = tailLen s ∧ 16 * nFull s + tailLen s = s.length ∧
    ∀ j, (tailBytes s)[j]? = s[16 * nFull s + j]?

/-! ### The context -/

/-- R160, R161, R203: NEWCTX writes the three context registers together where the primitive accepts the key, and
otherwise returns `InvalidKey` and leaves the old context; its trace is empty. -/
def Obligations.NewctxConstructsOrKeepsTheContext : Prop :=
  (∀ (ops : Operands), decode ⟨0x00000001#32, ops⟩ = .ok (.newctx .cfb ops.key) ∧
    decode ⟨0x00000011#32, ops⟩ = .ok (.newctx .ofb ops.key) ∧
    decode ⟨0x00000021#32, ops⟩ = .ok (.newctx .ctr ops.key) ∧
    decode ⟨0x00000031#32, ops⟩ = .ok (.newctx .cbc ops.key)) ∧
  ∀ (m : CipherMode) (key : ByteSeq) (s : State), exec (.newctx m key) s =
    .next (if Config.build.prim.keyValid key = true then
      { s.completed .ok [] [] with ctxv := true, mode := m, keyreg := key }
    else s.completed .invalidKey [] [])

/-- R202: without a context ENC and DEC return `NoContext`, with an empty trace and no change of state. -/
def Obligations.NoContextFailsEncAndDec : Prop :=
  ∀ (iv data : ByteSeq) (s : State), s.ctxv = false →
    exec (.enc iv data) s = .next (s.completed .noContext [] []) ∧
    exec (.dec iv data) s = .next (s.completed .noContext [] [])

/-- R204: with a context and an IV that is not 16 bytes long, ENC and DEC return `InvalidIVLength` in every mode, with
an empty trace. -/
def Obligations.WrongIvLengthFailsEncAndDec : Prop :=
  ∀ (iv data : ByteSeq) (s : State), s.ctxv = true → iv.length ≠ 16 →
    exec (.enc iv data) s = .next (s.completed .invalidIVLength [] []) ∧
    exec (.dec iv data) s = .next (s.completed .invalidIVLength [] [])

/-- R145, R205: CBC decryption of a length that is no multiple of 16 returns `InvalidCiphertextLength` before any
primitive call, and nothing else returns it. -/
def Obligations.CiphertextLengthIsCheckedForCbcDecOnly : Prop :=
  (∀ (iv : Block) (data : ByteSeq) (s : State), s.ctxv = true → s.mode = .cbc →
    data.length % 16 ≠ 0 → exec (.dec iv.bytes data) s = .next (s.completed .invalidCiphertextLength [] [])) ∧
  ∀ (i : Instr) (s : State) (out : ByteSeq) (tr : List PrimCall),
    exec i s = .next (s.completed .invalidCiphertextLength out tr) →
    ∃ iv data, i = .dec iv data ∧ s.ctxv = true ∧ s.mode = .cbc ∧ data.length % 16 ≠ 0

/-- R75: on every build, ENC and DEC have no transition exactly when their DATA is longer than `MAX_DATA_LEN`, and
otherwise do what they do on the build without the bound; `exec` is ENC and DEC on `Config.build`, which has none.
That DATA is refused in every state, one where an error of R207 applies included, is the model's reading (log entry 7),
and that `Config.build` has no bound is its choice (log entry 6). -/
def Obligations.OnlyDataOverTheBoundIsRefused : Prop :=
  (∀ (b : Build) (iv data : ByteSeq) (s : State),
    (∀ r, encOn b iv data s = .refused r ↔ r = .dataTooLong ∧ ∃ m, b.maxDataLen = some m ∧ m < data.length) ∧
    (∀ r, decOn b iv data s = .refused r ↔ r = .dataTooLong ∧ ∃ m, b.maxDataLen = some m ∧ m < data.length) ∧
    ((∀ m, b.maxDataLen = some m → data.length ≤ m) →
      encOn b iv data s = encOn { b with maxDataLen := none } iv data s ∧
      decOn b iv data s = decOn { b with maxDataLen := none } iv data s)) ∧
  ∀ (iv data : ByteSeq) (s : State), exec (.enc iv data) s = encOn Config.build iv data s ∧
    exec (.dec iv data) s = decOn Config.build iv data s ∧ Config.build.maxDataLen = none

/-- R26 and the writers of `MODE` and `KEYREG`: a step leaves the context alone unless it is a reset, which clears
`CTXV`, or a NEWCTX with a key the primitive accepts, which sets all three registers. -/
def Obligations.OnlyNewctxAndResetWriteTheContext : Prop :=
  ∀ s t : State, step s = .next t →
    SameContext s t ∨ (∃ rest, s.host = .reset :: rest ∧ t.ctxv = false) ∨
    ∃ c rest m key, s.host = .command c :: rest ∧ decode c = .ok (.newctx m key) ∧
      Config.build.prim.keyValid key = true ∧ t.ctxv = true ∧ t.mode = m ∧ t.keyreg = key

/-! ### Errors, responses and termination -/

/-- R207: where several errors apply the first of the order is reported, before any primitive call and with no change
of state; past those checks only `InvalidPadding` (DEC in CBC mode) and `InvalidKey` (NEWCTX) are left. -/
def Obligations.FirstErrorInOrderIsReported : Prop :=
  ∀ (s : State) (c : Command) (rest : List HostAction), s.host = .command c :: rest →
    (∀ e, firstError c s = some e → step s = .next ({ s with host := rest }.completed e [] [])) ∧
    (firstError c s = none → ∃ t code out tr, step s = .next t ∧
      t.observed = s.observed ++ [⟨⟨StatusCode.word code, out⟩, tr⟩] ∧
      (code = .ok ∨ (code = .invalidPadding ∧ s.mode = .cbc ∧ ∃ iv data, decode c = .ok (.dec iv data)) ∨
        (code = .invalidKey ∧ ∃ m key, decode c = .ok (.newctx m key))))

/-- R208: a command, legal or not, that raises an error returns its code with no output and leaves everything else as
it was; only `InvalidPadding` has a trace, which PrimitiveCallCountsOfCommands counts. -/
def Obligations.ErrorsChangeNoState : Prop :=
  ∀ (c : Command) (s t : State), runCommand c s = .next t →
    ∃ code out tr, t.observed = s.observed ++ [⟨⟨StatusCode.word code, out⟩, tr⟩] ∧
      (code ≠ .ok → out = [] ∧ t = s.completed code [] tr ∧ (code ≠ .invalidPadding → tr = []))

/-- R27: every command, legal or not, gives one response whose reserved status bits are 0, whose code is at most 6 and
whose output is empty with an error. -/
def Obligations.EveryResponseIsLegal : Prop :=
  ∀ (c : Command) (s t : State), runCommand c s = .next t →
    ∃ o, t.observed = s.observed ++ [o] ∧ o.response.Legal

/-- R35: after a command the per-command registers hold no value and a read of one would fault; no command makes such
a read, and what those registers hold before a command changes nothing in what it does. -/
def Obligations.NoCommandReadsAnEarlierCommandsRegisters : Prop :=
  (∀ (i : Instr) (s t : State), exec i s = .next t → t.Idle) ∧
  (∀ s : State, s.Idle → (∀ k, readCr s k = .faulted (.noValue .cr)) ∧ (∀ k, readKs s k = .faulted (.noValue .ks)) ∧
    (∀ k, readBidx s k = .faulted (.noValue .bidx)) ∧ ∀ k, readOut s k = .faulted (.noValue .out)) ∧
  (∀ (i : Instr) (s : State) (f : Fault), exec i s ≠ .fault f) ∧ (∀ (s : State) (f : Fault), step s ≠ .fault f) ∧
  ∀ (i : Instr) (s : State) (cr ks : Option Block) (bidx : Option Nat) (out : Option ByteSeq) (tr : List PrimCall),
    exec i { s with cr := cr, ks := ks, bidx := bidx, out := out, trace := tr } = exec i s

/-- R241: every command completes, in every state, with at most `floor(L/16) + 1` primitive calls. -/
def Obligations.EveryCommandCompletes : Prop :=
  ∀ (i : Instr) (s : State), ∃ t o, exec i s = .next t ∧ t.observed = s.observed ++ [o] ∧ t.host = s.host ∧ t.Idle ∧
      o.trace.length ≤ (match i with
        | .enc _ data => data.length / 16 + 1
        | .dec _ data => data.length / 16 + 1
        | .newctx _ _ => 0
        | .bxor _ _ => 0
        | .ctrinc _ => 0)

/-- R240: the exact number of `E` and `D` calls of a command that returns OK, and of one that fails: all of the
decryption with `InvalidPadding`, none otherwise. -/
def Obligations.PrimitiveCallCountsOfCommands : Prop :=
  ∀ (i : Instr) (s t : State) (o : Observation), exec i s = .next t → t.observed = s.observed ++ [o] →
    (o.response.status = StatusCode.ok.word → (encCalls o.trace, decCalls o.trace) = (match i with
      | .enc _ data => if s.mode = .cbc then (data.length / 16 + 1, 0)
        else (data.length / 16 + (if data.length % 16 > 0 then 1 else 0), 0)
      | .dec _ data => if s.mode = .cbc then (0, data.length / 16)
        else (data.length / 16 + (if data.length % 16 > 0 then 1 else 0), 0)
      | .newctx _ _ => (0, 0)
      | .bxor _ _ => (0, 0)
      | .ctrinc _ => (0, 0))) ∧
    (o.response.status ≠ StatusCode.ok.word → if o.response.status = StatusCode.invalidPadding.word then
        ∃ iv data, i = .dec iv data ∧ (encCalls o.trace, decCalls o.trace) = (0, data.length / 16)
      else o.trace = [])

/-- R54: the width of the output of a command that returns OK. -/
def Obligations.OutputWidthsOfOkCommands : Prop :=
  ∀ (i : Instr) (s t : State) (o : Observation), exec i s = .next t → t.observed = s.observed ++ [o] →
    o.response.status = StatusCode.ok.word →
    (match i with
      | .newctx _ _ => o.response.out = []
      | .enc _ data => if s.mode = .cbc then o.response.out.length = 16 * (data.length / 16 + 1)
        else o.response.out.length = data.length
      | .dec _ data => if s.mode = .cbc then
          data.length % 16 = 0 ∧ ∃ p, 1 ≤ p ∧ p ≤ 16 ∧ o.response.out.length + p = data.length
        else o.response.out.length = data.length
      | .bxor _ _ => o.response.out.length = 16
      | .ctrinc _ => o.response.out.length = 16)

/-! ### CFB, OFB and CTR -/

/-- R110, with what R111, R113 and R114 say of encryption: it returns its data under the keystream whose first input
is the IV and whose later inputs are the ciphertext blocks it has put out; nothing else changes. -/
def Obligations.CfbEncryptionChainsItsOutputBlocks : Prop :=
  (∀ ops : Operands, decode ⟨0x00000002#32, ops⟩ = .ok (.enc ops.iv ops.data)) ∧
  ∀ (iv : Block) (p : ByteSeq) (s : State), s.ctxv = true → s.mode = .cfb →
    ∃ (out : ByteSeq) (inputs : List Block), exec (.enc iv.bytes p) s = .next (s.completed .ok out (inputs.map .E)) ∧
      KeystreamResult (Config.build.prim.enc s.keyreg) inputs p out ∧
      ∀ i x, inputs[i]? = some x → x.bytes = if i = 0 then iv.bytes else slice out (i - 1)

/-- R112, with what R111, R113 and R114 say of decryption: it returns its data under the keystream whose first input
is the IV and whose later inputs are the ciphertext blocks it was given; nothing else changes. -/
def Obligations.CfbDecryptionChainsItsInputBlocks : Prop :=
  (∀ ops : Operands, decode ⟨0x00000003#32, ops⟩ = .ok (.dec ops.iv ops.data)) ∧
  ∀ (iv : Block) (c : ByteSeq) (s : State), s.ctxv = true → s.mode = .cfb →
    ∃ (out : ByteSeq) (inputs : List Block), exec (.dec iv.bytes c) s = .next (s.completed .ok out (inputs.map .E)) ∧
      KeystreamResult (Config.build.prim.enc s.keyreg) inputs c out ∧
      ∀ i x, inputs[i]? = some x → x.bytes = if i = 0 then iv.bytes else slice c (i - 1)

/-- R120, R121, R123: ENC and DEC in OFB mode return their data under the keystream whose call `i` encrypts `E^i(IV)`;
nothing else changes. -/
def Obligations.OfbFeedsBackItsKeystream : Prop :=
  (∀ ops : Operands, decode ⟨0x00000002#32, ops⟩ = .ok (.enc ops.iv ops.data)) ∧
  (∀ ops : Operands, decode ⟨0x00000003#32, ops⟩ = .ok (.dec ops.iv ops.data)) ∧
  ∀ (iv : Block) (x : ByteSeq) (s : State), s.ctxv = true → s.mode = .ofb →
    ∃ (out : ByteSeq) (inputs : List Block), exec (.enc iv.bytes x) s = .next (s.completed .ok out (inputs.map .E)) ∧
      exec (.dec iv.bytes x) s = .next (s.completed .ok out (inputs.map .E)) ∧
      KeystreamResult (Config.build.prim.enc s.keyreg) inputs x out ∧
      ∀ i y, inputs[i]? = some y → y = (Config.build.prim.enc s.keyreg)^[i] iv

/-- R130, R131, R132, R134: ENC and DEC in CTR mode return their data under the keystream whose call `i` encrypts the
counter `IV + i` modulo 2^128, the tail's call included; nothing else changes. -/
def Obligations.CtrEncryptsTheCounterSequence : Prop :=
  (∀ ops : Operands, decode ⟨0x00000002#32, ops⟩ = .ok (.enc ops.iv ops.data)) ∧
  (∀ ops : Operands, decode ⟨0x00000003#32, ops⟩ = .ok (.dec ops.iv ops.data)) ∧
  ∀ (iv : Block) (x : ByteSeq) (s : State), s.ctxv = true → s.mode = .ctr →
    ∃ (out : ByteSeq) (inputs : List Block), exec (.enc iv.bytes x) s = .next (s.completed .ok out (inputs.map .E)) ∧
      exec (.dec iv.bytes x) s = .next (s.completed .ok out (inputs.map .E)) ∧
      KeystreamResult (Config.build.prim.enc s.keyreg) inputs x out ∧
      ∀ i y, inputs[i]? = some y → y = Block.blk ((iv.int + i) % 2 ^ 128)

/-- R115: under one key and IV, CFB decryption of what CFB encryption returned is the plaintext, with the same
primitive calls, whatever happened between the two commands. -/
def Obligations.CfbRoundTrip : Prop :=
  ∀ (iv : Block) (p : ByteSeq) (s t : State), s.ctxv = true → s.mode = .cfb →
    SameContext s t → ∃ c tr, exec (.enc iv.bytes p) s = .next (s.completed .ok c tr) ∧
      exec (.dec iv.bytes c) t = .next (t.completed .ok p tr)

/-- R122, R133: the OFB and CTR transforms are self-inverse: either direction undoes either. -/
def Obligations.OfbAndCtrAreSelfInverse : Prop :=
  ∀ (iv : Block) (x : ByteSeq) (s t : State), s.ctxv = true → s.mode = .ofb ∨ s.mode = .ctr →
    SameContext s t →
    ∃ y tr, exec (.enc iv.bytes x) s = .next (s.completed .ok y tr) ∧
      exec (.dec iv.bytes x) s = .next (s.completed .ok y tr) ∧
      exec (.enc iv.bytes y) t = .next (t.completed .ok x tr) ∧
      exec (.dec iv.bytes y) t = .next (t.completed .ok x tr)

/-- R112's corner case: a change inside ciphertext block `i` reaches only blocks `i` and `i + 1` of the CFB
decryption. -/
def Obligations.CfbDecryptionErrorStaysLocal : Prop :=
  ∀ (iv : Block) (c d : ByteSeq) (i : Nat) (s : State), s.ctxv = true → s.mode = .cfb →
    c.length = d.length → (∀ k, k ≠ i → slice c k = slice d k) →
    ∃ out out' tr tr', exec (.dec iv.bytes c) s = .next (s.completed .ok out tr) ∧
      exec (.dec iv.bytes d) s = .next (s.completed .ok out' tr') ∧
      ∀ k, k ≠ i → k ≠ i + 1 → slice out k = slice out' k

/-! ### CBC -/

/-- R140, R141, R143: CBC encryption pads its data, XORs each block with the block before it (the IV first), encrypts
it, and returns the results in order; nothing else changes. -/
def Obligations.CbcEncryptionPadsAndChains : Prop :=
  (∀ ops : Operands, decode ⟨0x00000002#32, ops⟩ = .ok (.enc ops.iv ops.data)) ∧
  ∀ (iv : Block) (p : ByteSeq) (s : State), s.ctxv = true → s.mode = .cbc →
    ∃ (out : ByteSeq) (inputs : List Block), exec (.enc iv.bytes p) s = .next (s.completed .ok out (inputs.map .E)) ∧
      out.length = 16 * (p.length / 16 + 1) ∧ inputs.length = p.length / 16 + 1 ∧
      ∀ i x, inputs[i]? = some x →
        x.bytes = xorBytes (if i = 0 then iv.bytes else slice out (i - 1)) (slice (padded p) i) ∧
        slice out i = (Config.build.prim.enc s.keyreg x).bytes

/-- R146 to R149, R206: CBC decryption of a partial block is `InvalidCiphertextLength`. Of whole blocks it decrypts
each and XORs it with the ciphertext block before it (the IV first); the last byte decrypted decides between the
output cut by that many bytes and `InvalidPadding`, with the trace of all calls, and an empty ciphertext gives
`InvalidPadding`. -/
def Obligations.CbcDecryptionChainsAndUnpads : Prop :=
  (∀ ops : Operands, decode ⟨0x00000003#32, ops⟩ = .ok (.dec ops.iv ops.data)) ∧
  ∀ (iv : Block) (c : ByteSeq) (s : State), s.ctxv = true → s.mode = .cbc →
    (c.length % 16 ≠ 0 → exec (.dec iv.bytes c) s = .next (s.completed .invalidCiphertextLength [] [])) ∧
    (c.length % 16 = 0 →
      ∃ (q : ByteSeq) (inputs : List Block), q.length = c.length ∧ inputs.length = c.length / 16 ∧
        (∀ i x, inputs[i]? = some x → x.bytes = slice c i ∧
          slice q i = xorBytes (Config.build.prim.dec s.keyreg x).bytes
            (if i = 0 then iv.bytes else slice c (i - 1))) ∧
        exec (.dec iv.bytes c) s = .next (match q.getLast? with
          | none => s.completed .invalidPadding [] []
          | some p => if GoodPad p then s.completed .ok (q.take (c.length - p.toNat)) (inputs.map .D)
            else s.completed .invalidPadding [] (inputs.map .D)))

/-- R150: on every build, under a key its primitive accepts, CBC decryption of what CBC encryption returned is the
plaintext with status OK. It needs law 2 of R10. -/
def Obligations.CbcRoundTrip : Prop :=
  ∀ (b : Build) (iv : Block) (p : ByteSeq) (s t : State), s.ctxv = true → s.mode = .cbc →
    b.prim.keyValid s.keyreg = true → SameContext s t →
    (∀ m, b.maxDataLen = some m → 16 * (p.length / 16 + 1) ≤ m) →
    ∃ c tr tr', encOn b iv.bytes p s = .next (s.completed .ok c tr) ∧
      decOn b iv.bytes c t = .next (t.completed .ok p tr')

/-! ### Whole-machine rules -/

/-- R56: a command's response and trace are a function of the context, the command and its operands alone. -/
def Obligations.AnswersDependOnTheContextAlone : Prop :=
  ∀ (i : Instr) (s t : State), SameContext s t → AnswersAlike i s t

/-- While `CTXV = 0`, no command's answer depends on `MODE` or `KEYREG` (so none rests on the reset values of log
entry 1). -/
def Obligations.ContextIsUnobservableWhileInvalid : Prop :=
  ∀ (i : Instr) (s t : State), s.ctxv = false → t.ctxv = false → AnswersAlike i s t

/-- Every step keeps the invariant of the states between commands. -/
def Obligations.StepKeepsTheInvariant : Prop :=
  ∀ s t : State, s.Inv Config.build → step s = .next t → t.Inv Config.build

/-- The state after reset meets the invariant, on every build. -/
def Obligations.ResetMeetsTheInvariant : Prop := ∀ b : Build, State.reset.Inv b

/-! ### Every build -/

/-- R9, R75: the machine of every build steps as its unbounded build does, except that it has no transition when the next
command's DATA is over its bound; `step` and `core` are the machine of `Config.build`.  That the refusal comes before any
error is the model's reading (log entry 7), and that `Config.build` has no bound is its choice (log entry 6). -/
def Obligations.MachineOfEveryBuildRefusesOnlyLongData : Prop :=
  (∀ s : State, step s = stepOn Config.build s) ∧ Sys2Proof.core = coreOn Config.build ∧
  Config.build.maxDataLen = none ∧
  ∀ (b : Build) (s : State), (∀ f, stepOn b s ≠ .fault f) ∧
    (∀ r, stepOn b s = .refused r ↔ r = .dataTooLong ∧ s.NextDataTooLong b) ∧
    (¬ s.NextDataTooLong b → stepOn b s = stepOn { b with maxDataLen := none } s)

/-- R9, with R160 and R161: on a build whose `PRIM_KEY_VALID` is the default, NEWCTX accepts the keys of 16 bytes and no
others. -/
def Obligations.DefaultKeyTestAcceptsSixteenBytes : Prop :=
  ∀ (b : Build), b.prim.keyValid = Config.defaultKeyValid → ∀ (m : CipherMode) (key : ByteSeq) (s : State),
    execOn b (.newctx m key) s = .next (if key.length = 16 then
      { s.completed .ok [] [] with ctxv := true, mode := m, keyreg := key }
    else s.completed .invalidKey [] [])
end

