-- ==== Sys2Proof/Laws/Operands.lean ====
section
/-! SUPPORT. What the operand forms are: slices, full blocks and tails, the lanes of XOR, big-endian integers, and the
bound on DATA. -/

namespace Sys2Proof

open Sys2Proof.Machine (slice)

/-! ### Blocks -/

@[simp] theorem Block.length_bytes (b : Block) : b.bytes.length = 16 := b.length_eq

theorem Block.ofBytes?_bytes (b : Block) : Block.ofBytes? b.bytes = some b := by
  simp [Block.ofBytes?]

theorem Block.ofBytes?_eq_none {s : ByteSeq} (h : s.length ≠ 16) : Block.ofBytes? s = none := by
  simp [Block.ofBytes?, h]

theorem Block.ofBytes?_eq_some {s : ByteSeq} {b : Block} (h : Block.ofBytes? s = some b) : s = b.bytes := by
  unfold Block.ofBytes? at h
  split at h
  · simpa using congrArg (fun x => x.map Block.bytes) h
  · simp at h

/-! ### Lanes -/

@[simp] theorem length_xorBytes (a b : ByteSeq) : (xorBytes a b).length = min a.length b.length := by
  simp [xorBytes]

@[simp] theorem getElem_xorBytes (a b : ByteSeq) (j : Nat) (h : j < (xorBytes a b).length) :
    (xorBytes a b)[j] = a[j]'(by simp at h; omega) ^^^ b[j]'(by simp at h; omega) := by
  simp [xorBytes]

theorem xorBytes_append {a b c d : ByteSeq} (h : a.length = b.length) :
    xorBytes (a ++ c) (b ++ d) = xorBytes a b ++ xorBytes c d := by
  simp [xorBytes, List.zipWith_append h]

/-! ### Slices, full blocks and tails -/

@[simp] theorem length_slice (s : ByteSeq) (i : Nat) : (slice s i).length = min 16 (s.length - 16 * i) := by
  simp [slice]

theorem chunk_bytes (s : ByteSeq) (i : Nat) (h : i < nFull s) : (chunk s i h).bytes = slice s i := rfl

/-- The full blocks of a sequence, first block first (R52). -/
def fullBlocks (s : ByteSeq) : List Block := (List.finRange (nFull s)).map fun i : Fin (nFull s) => chunk s i.val i.isLt

@[simp] theorem length_fullBlocks (s : ByteSeq) : (fullBlocks s).length = nFull s := by simp [fullBlocks]

@[simp] theorem getElem_fullBlocks (s : ByteSeq) (i : Nat) (h : i < (fullBlocks s).length) :
    (fullBlocks s)[i] = chunk s i (by simpa using h) := by simp [fullBlocks]

/-- The bytes of a list of blocks, in order. -/
def flatBytes (bs : List Block) : ByteSeq := bs.flatMap Block.bytes

@[simp] theorem flatBytes_nil : flatBytes [] = [] := rfl

@[simp] theorem flatBytes_cons (b : Block) (bs : List Block) : flatBytes (b :: bs) = b.bytes ++ flatBytes bs := rfl

@[simp] theorem flatBytes_append (bs cs : List Block) : flatBytes (bs ++ cs) = flatBytes bs ++ flatBytes cs := by
  simp [flatBytes]

@[simp] theorem length_flatBytes (bs : List Block) : (flatBytes bs).length = 16 * bs.length := by
  induction bs with
  | nil => rfl
  | cons b bs ih => simp [ih]; omega

/-- Slice `i` of a run of whole blocks, whatever follows it, is block `i`. -/
theorem slice_flatBytes (bs : List Block) (t : ByteSeq) (i : Nat) (h : i < bs.length) :
    slice (flatBytes bs ++ t) i = bs[i].bytes := by
  induction bs generalizing i with
  | nil => simp at h
  | cons b bs ih =>
    cases i with
    | zero => simp [slice]
    | succ i =>
      have := ih i (by simpa using h)
      simp only [slice, flatBytes_cons, List.append_assoc, List.getElem_cons_succ] at *
      rw [show 16 * (i + 1) = b.bytes.length + 16 * i by simp; omega, List.drop_append, List.drop_of_length_le (by omega)]
      simpa using this

/-- A run of whole blocks followed by less than one block splits into those blocks. -/
theorem fullBlocks_flatBytes (bs : List Block) (t : ByteSeq) (ht : t.length < 16) :
    fullBlocks (flatBytes bs ++ t) = bs := by
  have hn : nFull (flatBytes bs ++ t) = bs.length := by simp [nFull]; omega
  apply List.ext_getElem (by simp [hn])
  intro i h1 h2
  ext1
  rw [getElem_fullBlocks, chunk_bytes, slice_flatBytes bs t i h2]

theorem tailBytes_flatBytes (bs : List Block) (t : ByteSeq) (ht : t.length < 16) :
    tailBytes (flatBytes bs ++ t) = t := by
  have hn : nFull (flatBytes bs ++ t) = bs.length := by simp [nFull]; omega
  simp [tailBytes, hn]

theorem take_flatBytes_fullBlocks (s : ByteSeq) (n : Nat) (hn : n ≤ nFull s) :
    flatBytes ((fullBlocks s).take n) = s.take (16 * n) := by
  induction n with
  | zero => simp
  | succ n ih =>
    rw [List.take_succ_eq_append_getElem (by simp; omega), flatBytes_append, ih (by omega), getElem_fullBlocks,
      flatBytes_cons, chunk_bytes, flatBytes_nil, List.append_nil, slice, ← List.take_add]
    congr 1

/-- The full blocks and the tail rebuild the sequence (R52). -/
theorem flatBytes_fullBlocks_append_tail (s : ByteSeq) : flatBytes (fullBlocks s) ++ tailBytes s = s := by
  have h := take_flatBytes_fullBlocks s (nFull s) (Nat.le_refl _)
  rw [List.take_of_length_le (by simp)] at h
  rw [h, tailBytes, List.take_append_drop]

theorem tailLen_lt (s : ByteSeq) : tailLen s < 16 := Nat.mod_lt _ (by decide)

theorem padLen_bounds (p : ByteSeq) : 1 ≤ padLen p ∧ padLen p ≤ 16 := by
  have := tailLen_lt p
  unfold padLen; omega

/-! ### The bound on DATA -/

theorem Build.accepts_iff (b : Build) (data : ByteSeq) :
    b.accepts data = true ↔ ∀ m, b.maxDataLen = some m → data.length ≤ m := by
  unfold Build.accepts
  split <;> simp_all

/-- The machine's build carries every DATA. -/
@[simp] theorem Config.build_accepts (data : ByteSeq) : Config.build.accepts data = true := rfl

theorem Build.accepts_congr (b : Build) {c d : ByteSeq} (h : c.length = d.length) : b.accepts c = b.accepts d := by
  rw [Bool.eq_iff_iff, accepts_iff, accepts_iff, h]

end Sys2Proof
end

