-- ==== Sys2Proof/Laws/State.lean ====
section
/-! SUPPORT. One lemma per field of State per update, each true by unfolding, so that no later proof unfolds a record
update. -/

namespace Sys2Proof.Machine

open Sys2Proof

/-! ### setCr -/

@[simp] theorem State.setCr_ctxv (s : State) (v : Block) : (s.setCr v).ctxv = s.ctxv := rfl
@[simp] theorem State.setCr_mode (s : State) (v : Block) : (s.setCr v).mode = s.mode := rfl
@[simp] theorem State.setCr_keyreg (s : State) (v : Block) : (s.setCr v).keyreg = s.keyreg := rfl
@[simp] theorem State.setCr_cr (s : State) (v : Block) : (s.setCr v).cr = some v := rfl
@[simp] theorem State.setCr_ks (s : State) (v : Block) : (s.setCr v).ks = s.ks := rfl
@[simp] theorem State.setCr_bidx (s : State) (v : Block) : (s.setCr v).bidx = s.bidx := rfl
@[simp] theorem State.setCr_out (s : State) (v : Block) : (s.setCr v).out = s.out := rfl
@[simp] theorem State.setCr_trace (s : State) (v : Block) : (s.setCr v).trace = s.trace := rfl
@[simp] theorem State.setCr_host (s : State) (v : Block) : (s.setCr v).host = s.host := rfl
@[simp] theorem State.setCr_observed (s : State) (v : Block) : (s.setCr v).observed = s.observed := rfl

/-! ### setKs -/

@[simp] theorem State.setKs_ctxv (s : State) (v : Block) : (s.setKs v).ctxv = s.ctxv := rfl
@[simp] theorem State.setKs_mode (s : State) (v : Block) : (s.setKs v).mode = s.mode := rfl
@[simp] theorem State.setKs_keyreg (s : State) (v : Block) : (s.setKs v).keyreg = s.keyreg := rfl
@[simp] theorem State.setKs_cr (s : State) (v : Block) : (s.setKs v).cr = s.cr := rfl
@[simp] theorem State.setKs_ks (s : State) (v : Block) : (s.setKs v).ks = some v := rfl
@[simp] theorem State.setKs_bidx (s : State) (v : Block) : (s.setKs v).bidx = s.bidx := rfl
@[simp] theorem State.setKs_out (s : State) (v : Block) : (s.setKs v).out = s.out := rfl
@[simp] theorem State.setKs_trace (s : State) (v : Block) : (s.setKs v).trace = s.trace := rfl
@[simp] theorem State.setKs_host (s : State) (v : Block) : (s.setKs v).host = s.host := rfl
@[simp] theorem State.setKs_observed (s : State) (v : Block) : (s.setKs v).observed = s.observed := rfl

/-! ### setBidx -/

@[simp] theorem State.setBidx_ctxv (s : State) (i : Nat) : (s.setBidx i).ctxv = s.ctxv := rfl
@[simp] theorem State.setBidx_mode (s : State) (i : Nat) : (s.setBidx i).mode = s.mode := rfl
@[simp] theorem State.setBidx_keyreg (s : State) (i : Nat) : (s.setBidx i).keyreg = s.keyreg := rfl
@[simp] theorem State.setBidx_cr (s : State) (i : Nat) : (s.setBidx i).cr = s.cr := rfl
@[simp] theorem State.setBidx_ks (s : State) (i : Nat) : (s.setBidx i).ks = s.ks := rfl
@[simp] theorem State.setBidx_bidx (s : State) (i : Nat) : (s.setBidx i).bidx = some i := rfl
@[simp] theorem State.setBidx_out (s : State) (i : Nat) : (s.setBidx i).out = s.out := rfl
@[simp] theorem State.setBidx_trace (s : State) (i : Nat) : (s.setBidx i).trace = s.trace := rfl
@[simp] theorem State.setBidx_host (s : State) (i : Nat) : (s.setBidx i).host = s.host := rfl
@[simp] theorem State.setBidx_observed (s : State) (i : Nat) : (s.setBidx i).observed = s.observed := rfl

/-! ### setOut -/

@[simp] theorem State.setOut_ctxv (s : State) (v : ByteSeq) : (s.setOut v).ctxv = s.ctxv := rfl
@[simp] theorem State.setOut_mode (s : State) (v : ByteSeq) : (s.setOut v).mode = s.mode := rfl
@[simp] theorem State.setOut_keyreg (s : State) (v : ByteSeq) : (s.setOut v).keyreg = s.keyreg := rfl
@[simp] theorem State.setOut_cr (s : State) (v : ByteSeq) : (s.setOut v).cr = s.cr := rfl
@[simp] theorem State.setOut_ks (s : State) (v : ByteSeq) : (s.setOut v).ks = s.ks := rfl
@[simp] theorem State.setOut_bidx (s : State) (v : ByteSeq) : (s.setOut v).bidx = s.bidx := rfl
@[simp] theorem State.setOut_out (s : State) (v : ByteSeq) : (s.setOut v).out = some v := rfl
@[simp] theorem State.setOut_trace (s : State) (v : ByteSeq) : (s.setOut v).trace = s.trace := rfl
@[simp] theorem State.setOut_host (s : State) (v : ByteSeq) : (s.setOut v).host = s.host := rfl
@[simp] theorem State.setOut_observed (s : State) (v : ByteSeq) : (s.setOut v).observed = s.observed := rfl

/-! ### logCall -/

@[simp] theorem State.logCall_ctxv (s : State) (c : PrimCall) : (s.logCall c).ctxv = s.ctxv := rfl
@[simp] theorem State.logCall_mode (s : State) (c : PrimCall) : (s.logCall c).mode = s.mode := rfl
@[simp] theorem State.logCall_keyreg (s : State) (c : PrimCall) : (s.logCall c).keyreg = s.keyreg := rfl
@[simp] theorem State.logCall_cr (s : State) (c : PrimCall) : (s.logCall c).cr = s.cr := rfl
@[simp] theorem State.logCall_ks (s : State) (c : PrimCall) : (s.logCall c).ks = s.ks := rfl
@[simp] theorem State.logCall_bidx (s : State) (c : PrimCall) : (s.logCall c).bidx = s.bidx := rfl
@[simp] theorem State.logCall_out (s : State) (c : PrimCall) : (s.logCall c).out = s.out := rfl
@[simp] theorem State.logCall_trace (s : State) (c : PrimCall) : (s.logCall c).trace = s.trace ++ [c] := rfl
@[simp] theorem State.logCall_host (s : State) (c : PrimCall) : (s.logCall c).host = s.host := rfl
@[simp] theorem State.logCall_observed (s : State) (c : PrimCall) : (s.logCall c).observed = s.observed := rfl

/-! ### discard -/

@[simp] theorem State.discard_ctxv (s : State) : (s.discard).ctxv = s.ctxv := rfl
@[simp] theorem State.discard_mode (s : State) : (s.discard).mode = s.mode := rfl
@[simp] theorem State.discard_keyreg (s : State) : (s.discard).keyreg = s.keyreg := rfl
@[simp] theorem State.discard_cr (s : State) : (s.discard).cr = none := rfl
@[simp] theorem State.discard_ks (s : State) : (s.discard).ks = none := rfl
@[simp] theorem State.discard_bidx (s : State) : (s.discard).bidx = none := rfl
@[simp] theorem State.discard_out (s : State) : (s.discard).out = none := rfl
@[simp] theorem State.discard_trace (s : State) : (s.discard).trace = [] := rfl
@[simp] theorem State.discard_host (s : State) : (s.discard).host = s.host := rfl
@[simp] theorem State.discard_observed (s : State) : (s.discard).observed = s.observed := rfl

/-! ### startBlocks -/

@[simp] theorem State.startBlocks_ctxv (s : State) (iv : Block) : (s.startBlocks iv).ctxv = s.ctxv := rfl
@[simp] theorem State.startBlocks_mode (s : State) (iv : Block) : (s.startBlocks iv).mode = s.mode := rfl
@[simp] theorem State.startBlocks_keyreg (s : State) (iv : Block) : (s.startBlocks iv).keyreg = s.keyreg := rfl
@[simp] theorem State.startBlocks_cr (s : State) (iv : Block) : (s.startBlocks iv).cr = some iv := rfl
@[simp] theorem State.startBlocks_ks (s : State) (iv : Block) : (s.startBlocks iv).ks = s.ks := rfl
@[simp] theorem State.startBlocks_bidx (s : State) (iv : Block) : (s.startBlocks iv).bidx = some 0 := rfl
@[simp] theorem State.startBlocks_out (s : State) (iv : Block) : (s.startBlocks iv).out = some [] := rfl
@[simp] theorem State.startBlocks_trace (s : State) (iv : Block) : (s.startBlocks iv).trace = s.trace := rfl
@[simp] theorem State.startBlocks_host (s : State) (iv : Block) : (s.startBlocks iv).host = s.host := rfl
@[simp] theorem State.startBlocks_observed (s : State) (iv : Block) : (s.startBlocks iv).observed = s.observed := rfl

/-! ### construct -/

@[simp] theorem State.construct_ctxv (s : State) (m : CipherMode) (k : ByteSeq) : (s.construct m k).ctxv = true := rfl
@[simp] theorem State.construct_mode (s : State) (m : CipherMode) (k : ByteSeq) : (s.construct m k).mode = m := rfl
@[simp] theorem State.construct_keyreg (s : State) (m : CipherMode) (k : ByteSeq) : (s.construct m k).keyreg = k := rfl
@[simp] theorem State.construct_cr (s : State) (m : CipherMode) (k : ByteSeq) : (s.construct m k).cr = s.cr := rfl
@[simp] theorem State.construct_ks (s : State) (m : CipherMode) (k : ByteSeq) : (s.construct m k).ks = s.ks := rfl
@[simp] theorem State.construct_bidx (s : State) (m : CipherMode) (k : ByteSeq) : (s.construct m k).bidx = s.bidx := rfl
@[simp] theorem State.construct_out (s : State) (m : CipherMode) (k : ByteSeq) : (s.construct m k).out = s.out := rfl
@[simp] theorem State.construct_trace (s : State) (m : CipherMode) (k : ByteSeq) : (s.construct m k).trace = s.trace := rfl
@[simp] theorem State.construct_host (s : State) (m : CipherMode) (k : ByteSeq) : (s.construct m k).host = s.host := rfl
@[simp] theorem State.construct_observed (s : State) (m : CipherMode) (k : ByteSeq) : (s.construct m k).observed = s.observed := rfl

/-! ### respond -/

@[simp] theorem State.respond_ctxv (s : State) (c : StatusCode) (o : ByteSeq) : (s.respond c o).ctxv = s.ctxv := rfl
@[simp] theorem State.respond_mode (s : State) (c : StatusCode) (o : ByteSeq) : (s.respond c o).mode = s.mode := rfl
@[simp] theorem State.respond_keyreg (s : State) (c : StatusCode) (o : ByteSeq) : (s.respond c o).keyreg = s.keyreg := rfl
@[simp] theorem State.respond_cr (s : State) (c : StatusCode) (o : ByteSeq) : (s.respond c o).cr = none := rfl
@[simp] theorem State.respond_ks (s : State) (c : StatusCode) (o : ByteSeq) : (s.respond c o).ks = none := rfl
@[simp] theorem State.respond_bidx (s : State) (c : StatusCode) (o : ByteSeq) : (s.respond c o).bidx = none := rfl
@[simp] theorem State.respond_out (s : State) (c : StatusCode) (o : ByteSeq) : (s.respond c o).out = none := rfl
@[simp] theorem State.respond_trace (s : State) (c : StatusCode) (o : ByteSeq) : (s.respond c o).trace = [] := rfl
@[simp] theorem State.respond_host (s : State) (c : StatusCode) (o : ByteSeq) : (s.respond c o).host = s.host := rfl
@[simp] theorem State.respond_observed (s : State) (c : StatusCode) (o : ByteSeq) : (s.respond c o).observed = s.observed ++ [⟨⟨c.word, o⟩, s.trace⟩] := rfl

/-! ### raise -/

@[simp] theorem State.raise_ctxv (s : State) (e : StatusCode) : (s.raise e).ctxv = s.ctxv := rfl
@[simp] theorem State.raise_mode (s : State) (e : StatusCode) : (s.raise e).mode = s.mode := rfl
@[simp] theorem State.raise_keyreg (s : State) (e : StatusCode) : (s.raise e).keyreg = s.keyreg := rfl
@[simp] theorem State.raise_cr (s : State) (e : StatusCode) : (s.raise e).cr = none := rfl
@[simp] theorem State.raise_ks (s : State) (e : StatusCode) : (s.raise e).ks = none := rfl
@[simp] theorem State.raise_bidx (s : State) (e : StatusCode) : (s.raise e).bidx = none := rfl
@[simp] theorem State.raise_out (s : State) (e : StatusCode) : (s.raise e).out = none := rfl
@[simp] theorem State.raise_trace (s : State) (e : StatusCode) : (s.raise e).trace = [] := rfl
@[simp] theorem State.raise_host (s : State) (e : StatusCode) : (s.raise e).host = s.host := rfl
@[simp] theorem State.raise_observed (s : State) (e : StatusCode) : (s.raise e).observed = s.observed ++ [⟨⟨e.word, []⟩, s.trace⟩] := rfl

/-! ### completed -/

@[simp] theorem State.completed_ctxv (s : State) (c : StatusCode) (o : ByteSeq) (t : List PrimCall) : (s.completed c o t).ctxv = s.ctxv := rfl
@[simp] theorem State.completed_mode (s : State) (c : StatusCode) (o : ByteSeq) (t : List PrimCall) : (s.completed c o t).mode = s.mode := rfl
@[simp] theorem State.completed_keyreg (s : State) (c : StatusCode) (o : ByteSeq) (t : List PrimCall) : (s.completed c o t).keyreg = s.keyreg := rfl
@[simp] theorem State.completed_cr (s : State) (c : StatusCode) (o : ByteSeq) (t : List PrimCall) : (s.completed c o t).cr = none := rfl
@[simp] theorem State.completed_ks (s : State) (c : StatusCode) (o : ByteSeq) (t : List PrimCall) : (s.completed c o t).ks = none := rfl
@[simp] theorem State.completed_bidx (s : State) (c : StatusCode) (o : ByteSeq) (t : List PrimCall) : (s.completed c o t).bidx = none := rfl
@[simp] theorem State.completed_out (s : State) (c : StatusCode) (o : ByteSeq) (t : List PrimCall) : (s.completed c o t).out = none := rfl
@[simp] theorem State.completed_trace (s : State) (c : StatusCode) (o : ByteSeq) (t : List PrimCall) : (s.completed c o t).trace = [] := rfl
@[simp] theorem State.completed_host (s : State) (c : StatusCode) (o : ByteSeq) (t : List PrimCall) : (s.completed c o t).host = s.host := rfl
@[simp] theorem State.completed_observed (s : State) (c : StatusCode) (o : ByteSeq) (t : List PrimCall) : (s.completed c o t).observed = s.observed ++ [⟨⟨c.word, o⟩, t⟩] := rfl

/-! ### issue -/

@[simp] theorem State.issue_ctxv (s : State) (c : Command) : (s.issue c).ctxv = s.ctxv := rfl
@[simp] theorem State.issue_mode (s : State) (c : Command) : (s.issue c).mode = s.mode := rfl
@[simp] theorem State.issue_keyreg (s : State) (c : Command) : (s.issue c).keyreg = s.keyreg := rfl
@[simp] theorem State.issue_cr (s : State) (c : Command) : (s.issue c).cr = s.cr := rfl
@[simp] theorem State.issue_ks (s : State) (c : Command) : (s.issue c).ks = s.ks := rfl
@[simp] theorem State.issue_bidx (s : State) (c : Command) : (s.issue c).bidx = s.bidx := rfl
@[simp] theorem State.issue_out (s : State) (c : Command) : (s.issue c).out = s.out := rfl
@[simp] theorem State.issue_trace (s : State) (c : Command) : (s.issue c).trace = s.trace := rfl
@[simp] theorem State.issue_host (s : State) (c : Command) : (s.issue c).host = .command c :: s.host := rfl
@[simp] theorem State.issue_observed (s : State) (c : Command) : (s.issue c).observed = s.observed := rfl

/-! ### applyReset -/

@[simp] theorem State.applyReset_ctxv (s : State) : (s.applyReset).ctxv = false := rfl
@[simp] theorem State.applyReset_mode (s : State) : (s.applyReset).mode = State.reset.mode := rfl
@[simp] theorem State.applyReset_keyreg (s : State) : (s.applyReset).keyreg = State.reset.keyreg := rfl
@[simp] theorem State.applyReset_cr (s : State) : (s.applyReset).cr = none := rfl
@[simp] theorem State.applyReset_ks (s : State) : (s.applyReset).ks = none := rfl
@[simp] theorem State.applyReset_bidx (s : State) : (s.applyReset).bidx = none := rfl
@[simp] theorem State.applyReset_out (s : State) : (s.applyReset).out = none := rfl
@[simp] theorem State.applyReset_trace (s : State) : (s.applyReset).trace = [] := rfl
@[simp] theorem State.applyReset_host (s : State) : (s.applyReset).host = s.host := rfl
@[simp] theorem State.applyReset_observed (s : State) : (s.applyReset).observed = s.observed := rfl

/-! ### primEnc -/

@[simp] theorem primEnc_ctxv (b : Build) (x : Block) (s : State) : (primEnc b x s).ctxv = s.ctxv := rfl
@[simp] theorem primEnc_mode (b : Build) (x : Block) (s : State) : (primEnc b x s).mode = s.mode := rfl
@[simp] theorem primEnc_keyreg (b : Build) (x : Block) (s : State) : (primEnc b x s).keyreg = s.keyreg := rfl
@[simp] theorem primEnc_cr (b : Build) (x : Block) (s : State) : (primEnc b x s).cr = s.cr := rfl
@[simp] theorem primEnc_ks (b : Build) (x : Block) (s : State) : (primEnc b x s).ks = some (b.prim.enc s.keyreg x) := rfl
@[simp] theorem primEnc_bidx (b : Build) (x : Block) (s : State) : (primEnc b x s).bidx = s.bidx := rfl
@[simp] theorem primEnc_out (b : Build) (x : Block) (s : State) : (primEnc b x s).out = s.out := rfl
@[simp] theorem primEnc_trace (b : Build) (x : Block) (s : State) : (primEnc b x s).trace = s.trace ++ [.E x] := rfl
@[simp] theorem primEnc_host (b : Build) (x : Block) (s : State) : (primEnc b x s).host = s.host := rfl
@[simp] theorem primEnc_observed (b : Build) (x : Block) (s : State) : (primEnc b x s).observed = s.observed := rfl

/-! ### primDec -/

@[simp] theorem primDec_ctxv (b : Build) (x : Block) (s : State) : (primDec b x s).ctxv = s.ctxv := rfl
@[simp] theorem primDec_mode (b : Build) (x : Block) (s : State) : (primDec b x s).mode = s.mode := rfl
@[simp] theorem primDec_keyreg (b : Build) (x : Block) (s : State) : (primDec b x s).keyreg = s.keyreg := rfl
@[simp] theorem primDec_cr (b : Build) (x : Block) (s : State) : (primDec b x s).cr = s.cr := rfl
@[simp] theorem primDec_ks (b : Build) (x : Block) (s : State) : (primDec b x s).ks = some (b.prim.dec s.keyreg x) := rfl
@[simp] theorem primDec_bidx (b : Build) (x : Block) (s : State) : (primDec b x s).bidx = s.bidx := rfl
@[simp] theorem primDec_out (b : Build) (x : Block) (s : State) : (primDec b x s).out = s.out := rfl
@[simp] theorem primDec_trace (b : Build) (x : Block) (s : State) : (primDec b x s).trace = s.trace ++ [.D x] := rfl
@[simp] theorem primDec_host (b : Build) (x : Block) (s : State) : (primDec b x s).host = s.host := rfl
@[simp] theorem primDec_observed (b : Build) (x : Block) (s : State) : (primDec b x s).observed = s.observed := rfl

end Sys2Proof.Machine
end

