-- ==== Sys2Proof/Laws/Ops.lean ====
section
/-! SUPPORT. What each shared operation does, said once: the reads, `emit`, the loop over full blocks, the keystream
tail, the end of a command. -/

namespace Sys2Proof.Machine

open Sys2Proof

/-! ### Progress, reads and emit -/

@[simp] theorem Progress.run_andThen (s : State) (k : State → Progress) : (Progress.run s).andThen k = k s := rfl

@[simp] theorem Progress.raised_andThen (e : StatusCode) (s : State) (k : State → Progress) :
    (Progress.raised e s).andThen k = .raised e s := rfl

@[simp] theorem Progress.faulted_andThen (f : Fault) (k : State → Progress) :
    (Progress.faulted f).andThen k = .faulted f := rfl

theorem readCr_some {s : State} {v : Block} (h : s.cr = some v) (k : Block → Progress) : readCr s k = k v := by
  simp [readCr, h]

theorem readBidx_some {s : State} {v : Nat} (h : s.bidx = some v) (k : Nat → Progress) : readBidx s k = k v := by
  simp [readBidx, h]

theorem readOut_some {s : State} {v : ByteSeq} (h : s.out = some v) (k : ByteSeq → Progress) :
    readOut s k = k v := by
  simp [readOut, h]

/-- `KS` has a value after every call on the primitive port. -/
@[simp] theorem readKs_primEnc (b : Build) (x : Block) (s : State) (k : Block → Progress) :
    readKs (primEnc b x s) k = k (b.prim.enc s.keyreg x) := rfl

@[simp] theorem readKs_primDec (b : Build) (x : Block) (s : State) (k : Block → Progress) :
    readKs (primDec b x s) k = k (b.prim.dec s.keyreg x) := rfl

theorem emit_some {s : State} {o : ByteSeq} (h : s.out = some o) (v : ByteSeq) :
    emit v s = .run (s.setOut (o ++ v)) := by
  simp [emit, readOut, h]

/-! ### Ending a command -/

theorem finish_run {s : State} {o : ByteSeq} (h : s.out = some o) :
    finish (.run s) = .next (s.respond .ok o) := by
  simp [finish, h]

@[simp] theorem finish_raised (e : StatusCode) (s : State) : finish (.raised e s) = .next (s.raise e) := rfl

@[simp] theorem respond_discard (s : State) (c : StatusCode) (o : ByteSeq) :
    s.discard.respond c o = s.completed c o [] := rfl

@[simp] theorem raise_discard (s : State) (e : StatusCode) : s.discard.raise e = s.completed e [] [] := rfl

/-! ### One block, and the loop over full blocks -/

/-- What one block step does: the call it makes, the value it leaves in `KS`, the block it emits and the next `CR`. -/
structure BlockEffect where
  call : PrimCall
  ks : Block
  out : Block
  cr : Block

/-- The state after a block step with effect `e`, `OUT` having held `o`. -/
def State.afterBlock (s : State) (o : ByteSeq) (e : BlockEffect) : State :=
  { s with cr := some e.cr, ks := some e.ks, out := some (o ++ e.out.bytes), trace := s.trace ++ [e.call] }

/-- `body` has the effect `f` on every state with key `key` in which `CR` and `OUT` have values. -/
def HasEffect (key : ByteSeq) (body : Block → State → Progress) (f : Block → Block → BlockEffect) : Prop :=
  ∀ (s : State) (cr : Block) (o : ByteSeq) (x : Block), s.keyreg = key → s.cr = some cr → s.out = some o →
    body x s = .run (s.afterBlock o (f cr x))

/-- The effects of the block steps on a list of blocks, `CR` starting at `cr`. -/
def chain (f : Block → Block → BlockEffect) : Block → List Block → List BlockEffect
  | _, [] => []
  | cr, x :: xs => f cr x :: chain f (f cr x).cr xs

/-- `CR` after the block steps on a list of blocks. -/
def chainEnd (f : Block → Block → BlockEffect) : Block → List Block → Block
  | cr, [] => cr
  | cr, x :: xs => chainEnd f (f cr x).cr xs

@[simp] theorem length_chain (f : Block → Block → BlockEffect) (cr : Block) (xs : List Block) :
    (chain f cr xs).length = xs.length := by
  induction xs generalizing cr with
  | nil => rfl
  | cons x xs ih => simp [chain, ih]

/-- `CR` before block step `i`. -/
theorem getElem_chain (f : Block → Block → BlockEffect) (cr : Block) (xs : List Block) (i : Nat)
    (h : i < (chain f cr xs).length) :
    (chain f cr xs)[i] = f (chainEnd f cr (xs.take i)) (xs[i]'(by simpa using h)) := by
  induction xs generalizing cr i with
  | nil => simp [chain] at h
  | cons x xs ih =>
    cases i with
    | zero => rfl
    | succ i => simpa [chain, chainEnd] using ih (f cr x).cr i (by simpa [chain] using h)

theorem chainEnd_take_succ (f : Block → Block → BlockEffect) (cr : Block) (xs : List Block) (i : Nat)
    (h : i < xs.length) :
    chainEnd f cr (xs.take (i + 1)) = (f (chainEnd f cr (xs.take i)) xs[i]).cr := by
  induction xs generalizing cr i with
  | nil => simp at h
  | cons x xs ih =>
    cases i with
    | zero => rfl
    | succ i => simpa [chainEnd] using ih (f cr x).cr i (by simpa using h)

/-- The loop from block `i` on, `fuel` blocks being left. -/
theorem blockLoop_run {key : ByteSeq} {body : Block → State → Progress} {f : Block → Block → BlockEffect}
    (hbody : HasEffect key body f) (data : ByteSeq) (fuel : Nat) :
    ∀ (s : State) (i : Nat) (cr : Block) (o : ByteSeq), s.keyreg = key → s.bidx = some i → s.cr = some cr →
      s.out = some o → i + fuel = nFull data →
      ∃ ks, blockLoop data body fuel s = .run { s with
        cr := some (chainEnd f cr ((fullBlocks data).drop i))
        ks := ks
        bidx := some (nFull data)
        out := some (o ++ flatBytes ((chain f cr ((fullBlocks data).drop i)).map BlockEffect.out))
        trace := s.trace ++ (chain f cr ((fullBlocks data).drop i)).map BlockEffect.call } := by
  induction fuel with
  | zero =>
    intro s i cr o hk hb hc ho hi
    have hd : (fullBlocks data).drop i = [] := List.drop_of_length_le (by simp; omega)
    refine ⟨s.ks, ?_⟩
    rw [hd]
    cases s
    simp only at hb hc ho hk
    simp [blockLoop, chain, chainEnd, hb, hc, ho, ← hi]
  | succ fuel ih =>
    intro s i cr o hk hb hc ho hi
    have hlt : i < nFull data := by omega
    have hd : (fullBlocks data).drop i = chunk data i hlt :: (fullBlocks data).drop (i + 1) := by
      rw [List.drop_eq_getElem_cons (by simpa using hlt), getElem_fullBlocks]
    obtain ⟨ks, h⟩ := ih ((s.afterBlock o (f cr (chunk data i hlt))).setBidx (i + 1)) (i + 1) _ _
      hk rfl rfl rfl (by omega)
    refine ⟨ks, ?_⟩
    rw [blockLoop, readBidx_some hb, dif_pos hlt, hbody s cr o _ hk hc ho, Progress.run_andThen, h, hd]
    simp [State.afterBlock, State.setBidx, chain, chainEnd]

/-- The loop over all full blocks, from the start of a command: `CR` is chained through them, their outputs are
emitted in order and their calls are traced in order. -/
theorem forBlocks_run {body : Block → State → Progress} {f : Block → Block → BlockEffect} (s : State)
    (hbody : HasEffect s.keyreg body f) (data : ByteSeq) (iv : Block) :
    ∃ ks, forBlocks data body (s.startBlocks iv) = .run { s with
      cr := some (chainEnd f iv (fullBlocks data))
      ks := ks
      bidx := some (nFull data)
      out := some (flatBytes ((chain f iv (fullBlocks data)).map BlockEffect.out))
      trace := s.trace ++ (chain f iv (fullBlocks data)).map BlockEffect.call } := by
  obtain ⟨ks, h⟩ := blockLoop_run hbody data (nFull data) (s.startBlocks iv) 0 iv [] rfl rfl rfl rfl (by simp)
  exact ⟨ks, by simpa [forBlocks, State.startBlocks, State.setCr, State.setBidx, State.setOut] using h⟩

/-! ### The keystream tail -/

/-- The tail adds nothing to a whole number of blocks, and otherwise one `E` call on `CR` and its leading bytes XORed
with the tail. -/
theorem keystreamTail_run (b : Build) (data : ByteSeq) {s : State} {cr : Block} {o : ByteSeq} (hc : s.cr = some cr)
    (ho : s.out = some o) :
    keystreamTail b data s = .run (if tailLen data = 0 then s else
      (primEnc b cr s).setOut
        (o ++ xorBytes ((b.prim.enc s.keyreg cr).bytes.take (tailLen data)) (tailBytes data))) := by
  unfold keystreamTail
  split
  · rfl
  · rw [readCr_some hc, readKs_primEnc, emit_some (by simpa using ho)]

end Sys2Proof.Machine
end

