-- ==== Sys2Proof/Laws/Engines.lean ====
section
/-! SUPPORT. What each mode engine does, said once: the effect of its block step, and the closed form of a whole
command in terms of the chain of those effects. -/

namespace Sys2Proof.Machine

open Sys2Proof

/-! ### The block steps -/

/-- A keystream block step: one `E` call on `CR`, its result XORed with the block, `next` the new `CR`. -/
def streamEffect (E : Block → Block) (next : Block → Block → Block) (cr x : Block) : BlockEffect :=
  ⟨.E cr, E cr, xor16 (E cr) x, next cr x⟩

theorem cfbEncBlock_effect (b : Build) (key : ByteSeq) :
    HasEffect key (cfbEncBlock b) (streamEffect (b.prim.enc key) fun cr x => xor16 (b.prim.enc key cr) x) := by
  intro s cr o x hk hc ho
  subst hk
  rw [cfbEncBlock, readCr_some hc, readKs_primEnc, emit_some (by simpa using ho)]
  rfl

theorem cfbDecBlock_effect (b : Build) (key : ByteSeq) :
    HasEffect key (cfbDecBlock b) (streamEffect (b.prim.enc key) fun _ x => x) := by
  intro s cr o x hk hc ho
  subst hk
  rw [cfbDecBlock, readCr_some hc, readKs_primEnc, emit_some (by simpa using ho)]
  rfl

theorem ofbBlock_effect (b : Build) (key : ByteSeq) :
    HasEffect key (ofbBlock b) (streamEffect (b.prim.enc key) fun cr _ => b.prim.enc key cr) := by
  intro s cr o x hk hc ho
  subst hk
  rw [ofbBlock, readCr_some hc, readKs_primEnc, emit_some (by simpa using ho)]
  rfl

theorem ctrBlock_effect (b : Build) (key : ByteSeq) :
    HasEffect key (ctrBlock b) (streamEffect (b.prim.enc key) fun cr _ => inc128 cr) := by
  intro s cr o x hk hc ho
  subst hk
  rw [ctrBlock, readCr_some hc, readKs_primEnc, emit_some (by simpa using ho)]
  rfl

/-- A CBC encryption step: the block is XORed with `CR` and encrypted; the result is emitted and is the new `CR`. -/
def cbcEncEffect (E : Block → Block) (cr x : Block) : BlockEffect :=
  ⟨.E (xor16 cr x), E (xor16 cr x), E (xor16 cr x), E (xor16 cr x)⟩

/-- A CBC decryption step: the block is decrypted and XORed with `CR`; the input block is the new `CR`. -/
def cbcDecEffect (D : Block → Block) (cr x : Block) : BlockEffect := ⟨.D x, D x, xor16 (D x) cr, x⟩

theorem cbcEncBlock_effect (b : Build) (key : ByteSeq) :
    HasEffect key (cbcEncBlock b) (cbcEncEffect (b.prim.enc key)) := by
  intro s cr o x hk hc ho
  subst hk
  rw [cbcEncBlock, readCr_some hc, readKs_primEnc, emit_some (by simpa using ho)]
  rfl

theorem cbcDecBlock_effect (b : Build) (key : ByteSeq) :
    HasEffect key (cbcDecBlock b) (cbcDecEffect (b.prim.dec key)) := by
  intro s cr o x hk hc ho
  subst hk
  rw [cbcDecBlock, readCr_some hc, readKs_primDec, emit_some (by simpa using ho)]
  rfl

/-! ### The keystream engines: CFB, OFB and CTR -/

/-- How many calls a keystream command makes: one for each full block and one for a tail. -/
def streamCalls (data : ByteSeq) : Nat := nFull data + (if 0 < tailLen data then 1 else 0)

/-- `CR` before call `i` of a keystream command. -/
def streamCr (E : Block → Block) (next : Block → Block → Block) (iv : Block) (data : ByteSeq) (i : Nat) : Block :=
  chainEnd (streamEffect E next) iv ((fullBlocks data).take i)

/-- The inputs of the calls of a keystream command. -/
def streamInputs (E : Block → Block) (next : Block → Block → Block) (iv : Block) (data : ByteSeq) : List Block :=
  (List.range (streamCalls data)).map (streamCr E next iv data)

/-- The output of a keystream command. -/
def streamOut (E : Block → Block) (next : Block → Block → Block) (iv : Block) (data : ByteSeq) : ByteSeq :=
  flatBytes ((chain (streamEffect E next) iv (fullBlocks data)).map BlockEffect.out) ++
    xorBytes ((E (streamCr E next iv data (nFull data))).bytes.take (tailLen data)) (tailBytes data)

@[simp] theorem length_streamInputs (E : Block → Block) (next : Block → Block → Block) (iv : Block) (data : ByteSeq) :
    (streamInputs E next iv data).length = streamCalls data := by simp [streamInputs]

@[simp] theorem getElem_streamInputs (E : Block → Block) (next : Block → Block → Block) (iv : Block) (data : ByteSeq)
    (i : Nat) (h : i < (streamInputs E next iv data).length) :
    (streamInputs E next iv data)[i] = streamCr E next iv data i := by simp [streamInputs]

theorem streamCr_zero (E : Block → Block) (next : Block → Block → Block) (iv : Block) (data : ByteSeq) :
    streamCr E next iv data 0 = iv := rfl

theorem streamCr_succ (E : Block → Block) (next : Block → Block → Block) (iv : Block) (data : ByteSeq) (i : Nat)
    (h : i < nFull data) :
    streamCr E next iv data (i + 1) = next (streamCr E next iv data i) (chunk data i h) := by
  rw [streamCr, chainEnd_take_succ _ _ _ _ (by simpa using h), getElem_fullBlocks]
  rfl

theorem streamTrace_fullBlocks (E : Block → Block) (next : Block → Block → Block) (iv : Block) (data : ByteSeq) :
    (chain (streamEffect E next) iv (fullBlocks data)).map BlockEffect.call =
      (List.range (nFull data)).map fun i => PrimCall.E (streamCr E next iv data i) := by
  apply List.ext_getElem (by simp)
  intro i h1 h2
  simp [getElem_chain, streamEffect, streamCr]

/-- A keystream command from its first block to its response. -/
theorem stream_finish (b : Build) (body : Block → State → Progress) (next : Block → Block → Block) (s : State)
    (hbody : HasEffect s.keyreg body (streamEffect (b.prim.enc s.keyreg) next)) (iv : Block) (data : ByteSeq) :
    finish ((forBlocks data body (s.discard.startBlocks iv)).andThen (keystreamTail b data)) =
      .next (s.completed .ok (streamOut (b.prim.enc s.keyreg) next iv data)
        ((streamInputs (b.prim.enc s.keyreg) next iv data).map .E)) := by
  obtain ⟨ks, h⟩ := forBlocks_run s.discard hbody data iv
  rw [h, Progress.run_andThen, keystreamTail_run b data rfl rfl]
  split
  · rename_i ht
    rw [finish_run rfl]
    congr 1
    simp [State.respond, State.completed, State.discard, streamOut, streamInputs, streamCalls, ht, xorBytes,
      streamTrace_fullBlocks]
  · rename_i ht
    rw [finish_run rfl]
    have hcr : chainEnd (streamEffect (b.prim.enc s.keyreg) next) iv (fullBlocks data) =
        streamCr (b.prim.enc s.keyreg) next iv data (nFull data) := by
      rw [streamCr, List.take_of_length_le (by simp)]
    congr 1
    simp [State.respond, State.completed, State.discard, streamOut, streamInputs, streamCalls, Nat.pos_of_ne_zero ht,
      streamTrace_fullBlocks, State.setOut, primEnc, State.setKs, State.logCall, hcr, List.range_succ]

theorem length_streamOut (E : Block → Block) (next : Block → Block → Block) (iv : Block) (data : ByteSeq) :
    (streamOut E next iv data).length = data.length := by
  have := tailLen_lt data
  simp [streamOut, length_tailBytes]
  unfold nFull tailLen
  omega

/-- Block `i` of the output is the keystream block XORed with block `i` of the data. -/
theorem slice_streamOut (E : Block → Block) (next : Block → Block → Block) (iv : Block) (data : ByteSeq) (i : Nat)
    (h : i < nFull data) :
    slice (streamOut E next iv data) i = (xor16 (E (streamCr E next iv data i)) (chunk data i h)).bytes := by
  rw [streamOut, slice_flatBytes _ _ _ (by simpa using h)]
  simp [getElem_chain, streamEffect, streamCr]

theorem fullBlocks_streamOut (E : Block → Block) (next : Block → Block → Block) (iv : Block) (data : ByteSeq) :
    fullBlocks (streamOut E next iv data) = (chain (streamEffect E next) iv (fullBlocks data)).map BlockEffect.out := by
  have := tailLen_lt data
  exact fullBlocks_flatBytes _ _ (by simp [length_tailBytes]; omega)

theorem tailBytes_streamOut (E : Block → Block) (next : Block → Block → Block) (iv : Block) (data : ByteSeq) :
    tailBytes (streamOut E next iv data) =
      xorBytes ((E (streamCr E next iv data (nFull data))).bytes.take (tailLen data)) (tailBytes data) := by
  have := tailLen_lt data
  exact tailBytes_flatBytes _ _ (by simp [length_tailBytes]; omega)

theorem getElem_of_slice {s : ByteSeq} {j : Nat} (h : j < s.length) (h' : j % 16 < (slice s (j / 16)).length) :
    (slice s (j / 16))[j % 16] = s[j] := by
  simp only [slice, List.getElem_take, List.getElem_drop]
  congr 1
  omega

/-- The output of a keystream command is its data under the keystream of its calls. -/
theorem streamOut_keystreamResult (E : Block → Block) (next : Block → Block → Block) (iv : Block) (data : ByteSeq) :
    KeystreamResult E (streamInputs E next iv data) data (streamOut E next iv data) := by
  refine ⟨length_streamOut .., by simp [streamCalls], ?_⟩
  intro j hj
  have ho : j < (streamOut E next iv data).length := by rw [length_streamOut]; exact hj
  have hc : j / 16 < streamCalls data := by unfold streamCalls nFull tailLen; split <;> omega
  have hm : j % 16 < 16 := Nat.mod_lt _ (by decide)
  refine ⟨streamCr E next iv data (j / 16), (E (streamCr E next iv data (j / 16))).bytes[j % 16]'(by simpa using hm),
    data[j], by rw [List.getElem?_eq_getElem (by simpa using hc), getElem_streamInputs],
    by rw [List.getElem?_eq_getElem], by rw [List.getElem?_eq_getElem], ?_⟩
  rw [List.getElem?_eq_getElem ho]
  congr 1
  by_cases hf : j / 16 < nFull data
  · have hs := slice_streamOut E next iv data (j / 16) hf
    have hl : j % 16 < (slice (streamOut E next iv data) (j / 16)).length := by rw [hs]; simpa using hm
    have hd : j % 16 < (slice data (j / 16)).length := by
      have := (chunk data (j / 16) hf).length_eq
      rw [chunk_bytes] at this; omega
    rw [← getElem_of_slice ho hl, ← getElem_of_slice hj hd]
    simp only [hs, xor16, getElem_xorBytes, chunk_bytes]
  · have hn : j / 16 = nFull data := by unfold nFull at *; omega
    have hp : (flatBytes ((chain (streamEffect E next) iv (fullBlocks data)).map BlockEffect.out)).length =
        16 * nFull data := by simp
    have hjn : 16 * nFull data ≤ j := by omega
    simp only [streamOut]
    rw [List.getElem_append_right (by omega), getElem_xorBytes, List.getElem_take]
    simp only [hp, hn, tailBytes, List.getElem_drop]
    congr 2 <;> omega

/-! ### The CBC engine -/

/-- CBC encryption from its first block to its response: the padding block ends the chain. -/
theorem cbcEnc_finish (b : Build) (s : State) (iv : Block) (p : ByteSeq) :
    finish (cbcEnc b iv p s.discard) = .next (s.completed .ok
      (flatBytes ((chain (cbcEncEffect (b.prim.enc s.keyreg)) iv (fullBlocks p ++ [padBlock p])).map BlockEffect.out))
      ((chain (cbcEncEffect (b.prim.enc s.keyreg)) iv (fullBlocks p ++ [padBlock p])).map BlockEffect.call)) := by
  obtain ⟨ks, h⟩ := forBlocks_run s.discard (cbcEncBlock_effect b s.keyreg) p iv
  have happ : ∀ (xs : List Block) (cr : Block),
      chain (cbcEncEffect (b.prim.enc s.keyreg)) cr (xs ++ [padBlock p]) =
        chain (cbcEncEffect (b.prim.enc s.keyreg)) cr xs ++
          [cbcEncEffect (b.prim.enc s.keyreg) (chainEnd (cbcEncEffect (b.prim.enc s.keyreg)) cr xs) (padBlock p)] := by
    intro xs
    induction xs with
    | nil => intro cr; rfl
    | cons x xs ih => intro cr; simp [chain, chainEnd, ih]
  rw [cbcEnc, h, Progress.run_andThen, cbcLastBlock, readCr_some rfl, readKs_primEnc, emit_some rfl, finish_run rfl]
  congr 1
  simp [State.respond, State.completed, State.discard, happ, State.setOut, primEnc, State.setKs, State.logCall,
    cbcEncEffect]

/-- The decrypted bytes of a CBC ciphertext, before unpadding. -/
def cbcPlain (D : Block → Block) (iv : Block) (c : ByteSeq) : ByteSeq :=
  flatBytes ((chain (cbcDecEffect D) iv (fullBlocks c)).map BlockEffect.out)

theorem length_cbcPlain (D : Block → Block) (iv : Block) (c : ByteSeq) :
    (cbcPlain D iv c).length = 16 * nFull c := by simp [cbcPlain]

theorem chain_cbcDec_calls (D : Block → Block) (cr : Block) (xs : List Block) :
    (chain (cbcDecEffect D) cr xs).map BlockEffect.call = xs.map PrimCall.D := by
  induction xs generalizing cr with
  | nil => rfl
  | cons x xs ih => simp [chain, ih, cbcDecEffect]

/-- CBC decryption of whole blocks whose last decrypted byte is a pad length. -/
theorem cbcDec_finish_good (b : Build) (s : State) (iv : Block) (c : ByteSeq) (hl : c.length % 16 = 0) (p : Byte)
    (hp : (cbcPlain (b.prim.dec s.keyreg) iv c).getLast? = some p) (hg : GoodPad p) :
    finish (cbcDec b iv c s.discard) = .next (s.completed .ok
      ((cbcPlain (b.prim.dec s.keyreg) iv c).take ((cbcPlain (b.prim.dec s.keyreg) iv c).length - p.toNat))
      ((fullBlocks c).map .D)) := by
  obtain ⟨ks, h⟩ := forBlocks_run s.discard (cbcDecBlock_effect b s.keyreg) c iv
  rw [chain_cbcDec_calls] at h
  rw [cbcDec, if_pos hl, h, Progress.run_andThen, cbcUnpad, readOut_some rfl]
  change finish (match (cbcPlain (b.prim.dec s.keyreg) iv c).getLast? with | none => _ | some p => _) = _
  rw [hp]
  simp only []
  rw [if_pos (show 1 ≤ p.toNat ∧ p.toNat ≤ 16 from hg), finish_run rfl]
  rfl

/-- CBC decryption of whole blocks whose last decrypted byte is no pad length, or that are none at all. -/
theorem cbcDec_finish_bad (b : Build) (s : State) (iv : Block) (c : ByteSeq) (hl : c.length % 16 = 0)
    (hp : ∀ p, (cbcPlain (b.prim.dec s.keyreg) iv c).getLast? = some p → ¬ GoodPad p) :
    finish (cbcDec b iv c s.discard) = .next (s.completed .invalidPadding [] ((fullBlocks c).map .D)) := by
  obtain ⟨ks, h⟩ := forBlocks_run s.discard (cbcDecBlock_effect b s.keyreg) c iv
  rw [chain_cbcDec_calls] at h
  rw [cbcDec, if_pos hl, h, Progress.run_andThen, cbcUnpad, readOut_some rfl]
  change finish (match (cbcPlain (b.prim.dec s.keyreg) iv c).getLast? with | none => _ | some p => _) = _
  split
  · rfl
  · rename_i p hq
    rw [if_neg (show ¬ (1 ≤ p.toNat ∧ p.toNat ≤ 16) from hp p hq)]
    rfl

/-! ### ENC and DEC past their checks -/

/-- ENC with a context, a 16-byte IV and DATA the build carries runs the engine of its mode. -/
theorem encOn_ready {b : Build} {s : State} (hv : s.ctxv = true) (iv : Block) {data : ByteSeq}
    (ha : b.accepts data = true) :
    encOn b iv.bytes data s = finish (encEngine b s.mode iv data s.discard) := by
  simp [encOn, throughContext, ha, hv, Block.ofBytes?_bytes]

/-- DEC with a context, a 16-byte IV and DATA the build carries runs the engine of its mode. -/
theorem decOn_ready {b : Build} {s : State} (hv : s.ctxv = true) (iv : Block) {data : ByteSeq}
    (ha : b.accepts data = true) :
    decOn b iv.bytes data s = finish (decEngine b s.mode iv data s.discard) := by
  simp [decOn, throughContext, ha, hv, Block.ofBytes?_bytes]

end Sys2Proof.Machine
end

