-- ==== Sys2Proof/Laws/Answers.lean ====
section
/-! SUPPORT. What each command answers, said once: a closed form of its response and trace as a function of the context
and its operands, and the one lemma per command that says it leaves exactly that. -/

namespace Sys2Proof.Machine

open Sys2Proof

/-- A status code, an output and a trace. -/
structure Answer where
  code : StatusCode
  out : ByteSeq
  trace : List PrimCall

/-- The state a command leaves with a given answer, its context unchanged. -/
def State.answered (s : State) (a : Answer) : State := s.completed a.code a.out a.trace

/-- The answer of a keystream command. -/
def streamAnswer (E : Block → Block) (next : Block → Block → Block) (iv : Block) (data : ByteSeq) : Answer :=
  ⟨.ok, streamOut E next iv data, (streamInputs E next iv data).map .E⟩

/-- The answer of CBC encryption. -/
def cbcEncAnswer (E : Block → Block) (iv : Block) (p : ByteSeq) : Answer :=
  ⟨.ok, flatBytes ((chain (cbcEncEffect E) iv (fullBlocks p ++ [padBlock p])).map BlockEffect.out),
    (chain (cbcEncEffect E) iv (fullBlocks p ++ [padBlock p])).map BlockEffect.call⟩

/-- The answer of CBC decryption. -/
def cbcDecAnswer (D : Block → Block) (iv : Block) (c : ByteSeq) : Answer :=
  if c.length % 16 = 0 then
    match (cbcPlain D iv c).getLast? with
    | none => ⟨.invalidPadding, [], (fullBlocks c).map .D⟩
    | some p =>
      if GoodPad p then
        ⟨.ok, (cbcPlain D iv c).take ((cbcPlain D iv c).length - p.toNat), (fullBlocks c).map .D⟩
      else ⟨.invalidPadding, [], (fullBlocks c).map .D⟩
  else ⟨.invalidCiphertextLength, [], []⟩

/-- The answer of the ENC engine of a mode. -/
def encModeAnswer (P : Primitive) (key : ByteSeq) : CipherMode → Block → ByteSeq → Answer
  | .cfb => streamAnswer (P.enc key) fun cr x => xor16 (P.enc key cr) x
  | .ofb => streamAnswer (P.enc key) fun cr _ => P.enc key cr
  | .ctr => streamAnswer (P.enc key) fun cr _ => inc128 cr
  | .cbc => cbcEncAnswer (P.enc key)

/-- The answer of the DEC engine of a mode. -/
def decModeAnswer (P : Primitive) (key : ByteSeq) : CipherMode → Block → ByteSeq → Answer
  | .cfb => streamAnswer (P.enc key) fun _ x => x
  | .ofb => streamAnswer (P.enc key) fun cr _ => P.enc key cr
  | .ctr => streamAnswer (P.enc key) fun cr _ => inc128 cr
  | .cbc => cbcDecAnswer (P.dec key)

/-- The answer past the checks ENC and DEC share. -/
def checkedAnswer (ctxv : Bool) (iv : ByteSeq) (k : Block → Answer) : Answer :=
  if ctxv then
    match Block.ofBytes? iv with
    | some v => k v
    | none => ⟨.invalidIVLength, [], []⟩
  else ⟨.noContext, [], []⟩

theorem cbcDec_finish (b : Build) (s : State) (iv : Block) (c : ByteSeq) :
    finish (cbcDec b iv c s.discard) = .next (s.answered (cbcDecAnswer (b.prim.dec s.keyreg) iv c)) := by
  by_cases hl : c.length % 16 = 0
  · rw [cbcDecAnswer, if_pos hl]
    split
    · rename_i hq
      exact cbcDec_finish_bad b s iv c hl (fun p hp => by simp [hq] at hp)
    · rename_i p hq
      split
      · rename_i hg
        exact cbcDec_finish_good b s iv c hl p hq hg
      · rename_i hg
        exact cbcDec_finish_bad b s iv c hl (fun p' hp => by
          rw [hq] at hp
          cases hp
          exact hg)
  · rw [cbcDecAnswer, if_neg hl, cbcDec, if_neg hl]
    rfl

theorem encEngine_finish (b : Build) (s : State) (m : CipherMode) (iv : Block) (data : ByteSeq) :
    finish (encEngine b m iv data s.discard) = .next (s.answered (encModeAnswer b.prim s.keyreg m iv data)) := by
  cases m with
  | cfb => exact stream_finish b _ _ s (cfbEncBlock_effect b s.keyreg) iv data
  | ofb => exact stream_finish b _ _ s (ofbBlock_effect b s.keyreg) iv data
  | ctr => exact stream_finish b _ _ s (ctrBlock_effect b s.keyreg) iv data
  | cbc => exact cbcEnc_finish b s iv data

theorem decEngine_finish (b : Build) (s : State) (m : CipherMode) (iv : Block) (data : ByteSeq) :
    finish (decEngine b m iv data s.discard) = .next (s.answered (decModeAnswer b.prim s.keyreg m iv data)) := by
  cases m with
  | cfb => exact stream_finish b _ _ s (cfbDecBlock_effect b s.keyreg) iv data
  | ofb => exact stream_finish b _ _ s (ofbBlock_effect b s.keyreg) iv data
  | ctr => exact stream_finish b _ _ s (ctrBlock_effect b s.keyreg) iv data
  | cbc => exact cbcDec_finish b s iv data

/-- Everything ENC can do. -/
theorem encOn_eq (b : Build) (iv data : ByteSeq) (s : State) :
    encOn b iv data s = if b.accepts data then
      .next (s.answered (checkedAnswer s.ctxv iv fun v => encModeAnswer b.prim s.keyreg s.mode v data))
    else .refused .dataTooLong := by
  unfold encOn checkedAnswer throughContext
  split
  · by_cases hv : s.ctxv = true
    · simp only [State.discard_ctxv, hv, if_true]
      cases Block.ofBytes? iv with
      | some v => exact encEngine_finish b s s.mode v data
      | none => rfl
    · simp [hv]
      rfl
  · rfl

/-- Everything DEC can do. -/
theorem decOn_eq (b : Build) (iv data : ByteSeq) (s : State) :
    decOn b iv data s = if b.accepts data then
      .next (s.answered (checkedAnswer s.ctxv iv fun v => decModeAnswer b.prim s.keyreg s.mode v data))
    else .refused .dataTooLong := by
  unfold decOn checkedAnswer throughContext
  split
  · by_cases hv : s.ctxv = true
    · simp only [State.discard_ctxv, hv, if_true]
      cases Block.ofBytes? iv with
      | some v => exact decEngine_finish b s s.mode v data
      | none => rfl
    · simp [hv]
      rfl
  · rfl

end Sys2Proof.Machine
end

