-- ==== Sys2Proof/Laws/Decode.lean ====
section
/-! SUPPORT. The fields of a command word as numbers. -/

namespace Sys2Proof

/-- The three fields make up the word (R70). -/
theorem word_eq_fields (w : BitVec 32) :
    w.toNat = (opcField w).toNat + 16 * (modeField w).toNat + 64 * (rsvdField w).toNat := by
  simp [opcField, modeField, rsvdField, BitVec.extractLsb'_toNat, Nat.shiftRight_eq_div_pow]
  have := w.isLt
  omega

end Sys2Proof
end

