-- ==== Sys2Proof/Laws/PerInstr.lean ====
section
/-! SUPPORT. The family `ReservedFieldsZero` of statements about each instruction as syntax (30_encoding.md R72): its
command word has `RSVD = 0`, and `MODE = 00` unless it is NEWCTX. -/

namespace Sys2Proof.Laws.ReservedFieldsZero

open Sys2Proof

/-- `RSVD` is 0, and `MODE` is `00` in every command but NEWCTX (R72). -/
def Statement (i : Instr) : Prop :=
  rsvdField (encode i).word = 0 ∧ (opcField (encode i).word ≠ 0x1#4 → modeField (encode i).word = 0)

theorem newctx (mode : CipherMode) (key : ByteSeq) : Statement (.newctx mode key) := by
  cases mode <;> simp [Statement, encode, encodeWord, CipherMode.toBits, rsvdField, opcField]

theorem enc (iv data : ByteSeq) : Statement (.enc iv data) := by
  simp [Statement, encode, encodeWord, rsvdField, opcField, modeField]

theorem dec (iv data : ByteSeq) : Statement (.dec iv data) := by
  simp [Statement, encode, encodeWord, rsvdField, opcField, modeField]

theorem bxor (a b : Block) : Statement (.bxor a b) := by
  simp [Statement, encode, encodeWord, rsvdField, opcField, modeField]

theorem ctrinc (a : Block) : Statement (.ctrinc a) := by
  simp [Statement, encode, encodeWord, rsvdField, opcField, modeField]

end Sys2Proof.Laws.ReservedFieldsZero
end

