-- ==== Sys2Proof/Laws/Step.lean ====
section
/-! SUPPORT. What a command does on any build, said once; what a step can do; and that `exec`, `step` and `core` are the
machine of `Config.build`. -/

namespace Sys2Proof.Machine

open Sys2Proof

/-- What a command answers on build `b`. -/
def answerOf (b : Build) (s : State) : Instr → Answer
  | .newctx _ key => if b.prim.keyValid key then ⟨.ok, [], []⟩ else ⟨.invalidKey, [], []⟩
  | .enc iv data => checkedAnswer s.ctxv iv fun v => encModeAnswer b.prim s.keyreg s.mode v data
  | .dec iv data => checkedAnswer s.ctxv iv fun v => decModeAnswer b.prim s.keyreg s.mode v data
  | .bxor x y => ⟨.ok, (xor16 x y).bytes, []⟩
  | .ctrinc x => ⟨.ok, (inc128 x).bytes, []⟩

/-- The context a command leaves: only a NEWCTX with a key the primitive accepts writes it. -/
def State.withContextOf (s : State) (b : Build) : Instr → State
  | .newctx m key => if b.prim.keyValid key then s.construct m key else s
  | .enc _ _ => s
  | .dec _ _ => s
  | .bxor _ _ => s
  | .ctrinc _ => s

/-- Everything a command can do on build `b`. -/
theorem execOn_eq (b : Build) (i : Instr) (s : State) :
    execOn b i s = if WellFormed b i then .next ((s.withContextOf b i).answered (answerOf b s i))
      else .refused .dataTooLong := by
  cases i with
  | newctx m key => by_cases h : b.prim.keyValid key <;>
      simp [execOn, newctxOn, WellFormed, State.withContextOf, answerOf, h] <;> rfl
  | enc iv data => exact encOn_eq b iv data s
  | dec iv data => exact decOn_eq b iv data s
  | bxor x y => rfl
  | ctrinc x => rfl

/-- The bound of a build decides whether it has a transition, and nothing else (R75). -/
theorem execOn_unbounded (b : Build) (i : Instr) (s : State) (h : WellFormed b i = true) :
    execOn b i s = execOn { b with maxDataLen := none } i s := by
  have h' : WellFormed { b with maxDataLen := none } i = true := by cases i <;> rfl
  rw [execOn_eq, execOn_eq, if_pos h, if_pos h']
  cases i <;> rfl

theorem exec_eq_execOn (i : Instr) (s : State) : exec i s = execOn Config.build i s := by
  cases i <;> rfl

theorem step_eq_stepOn (s : State) : step s = stepOn Config.build s := by
  rw [step, stepOn, show exec = execOn Config.build from funext fun i => funext (exec_eq_execOn i)]

theorem core_eq_coreOn : Sys2Proof.core = coreOn Config.build := by
  unfold Sys2Proof.core coreOn
  rw [show step = stepOn Config.build from funext step_eq_stepOn]

/-! ### The sequencer -/

variable {run : Instr → State → Host.Outcome State Fault Refusal} {s : State}

theorem runWith_ok {c : Command} {i : Instr} (h : decode c = .ok i) : runWith run c s = run i s := by
  simp [runWith, h]

theorem runWith_illegal {c : Command} {e : IllegalWord} (h : decode c = .error e) :
    runWith run c s = illegalCommand s := by
  simp [runWith, h]

theorem stepWith_idle (h : s.host = []) : stepWith run s = .next s := by simp [stepWith, nextAction, h]

theorem stepWith_reset {rest : List HostAction} (h : s.host = .reset :: rest) :
    stepWith run s = .next ({ s with host := rest } : State).applyReset := by
  simp [stepWith, nextAction, h]

theorem stepWith_command {c : Command} {rest : List HostAction} (h : s.host = .command c :: rest) :
    stepWith run s = runWith run c { s with host := rest } := by
  simp [stepWith, nextAction, h]

/-- Everything a step can do. -/
theorem stepWith_cases {o : Host.Outcome State Fault Refusal} (h : stepWith run s = o) :
    (s.host = [] ∧ o = .next s) ∨
    (∃ rest, s.host = .reset :: rest ∧ o = .next ({ s with host := rest } : State).applyReset) ∨
    (∃ c rest e, s.host = .command c :: rest ∧ decode c = .error e ∧
      o = illegalCommand { s with host := rest }) ∨
    ∃ c rest i, s.host = .command c :: rest ∧ decode c = .ok i ∧ o = run i { s with host := rest } := by
  subst h
  cases hh : s.host with
  | nil => exact .inl ⟨rfl, stepWith_idle hh⟩
  | cons a rest =>
    cases a with
    | reset => exact .inr (.inl ⟨rest, rfl, stepWith_reset hh⟩)
    | command c =>
      rw [stepWith_command hh]
      cases hd : decode c with
      | error e => exact .inr (.inr (.inl ⟨c, rest, e, rfl, hd, runWith_illegal hd⟩))
      | ok i => exact .inr (.inr (.inr ⟨c, rest, i, rfl, hd, runWith_ok hd⟩))

end Sys2Proof.Machine
end

