-- ==== Sys2Proof/Tests/Slice0.lean ====
section
/-! SUPPORT. The model's own tests.  Expected values come from spec/95_test_vectors.md, computed there under its TOY
primitive (§0), or from the encodings of 30_encoding.md R79 written out by hand. -/

namespace Sys2Proof.Tests

open Sys2Proof Sys2Proof.Machine

/-! ### The TOY primitive (95_test_vectors.md §0) -/

/-- The key as a block; TOY is given for 16-byte keys only. -/
def toyKey (k : ByteSeq) : Block := (Block.ofBytes? k).getD Block.zero

/-- `TOY_ENC(k, x)[i] = x[(i + 1) mod 16] XOR k[i]`. -/
def toyEnc (k : ByteSeq) (x : Block) : Block :=
  ⟨xorBytes (x.bytes.drop 1 ++ x.bytes.take 1) (toyKey k).bytes, by simp⟩

/-- `TOY_DEC(k, y)[j] = y[(j - 1) mod 16] XOR k[(j - 1) mod 16]`. -/
def toyDec (k : ByteSeq) (y : Block) : Block :=
  ⟨(xorBytes y.bytes (toyKey k).bytes).drop 15 ++ (xorBytes y.bytes (toyKey k).bytes).take 15, by simp⟩

theorem toyDec_toyEnc (k : ByteSeq) (x : Block) : toyDec k (toyEnc k x) = x := by
  ext1
  have h : xorBytes (toyEnc k x).bytes (toyKey k).bytes = x.bytes.drop 1 ++ x.bytes.take 1 := by
    apply List.ext_getElem (by simp)
    intro i h1 h2
    simp only [toyEnc, getElem_xorBytes, BitVec.xor_assoc, BitVec.xor_self, BitVec.xor_zero]
  obtain ⟨bytes, hb⟩ := x
  cases bytes with
  | nil => simp at hb
  | cons a l => simp [toyDec, h, show l.length = 15 by simpa using hb]

/-- TOY with the defaults of R9: `PRIM_KEY_VALID := (len = 16)` and no `MAX_DATA_LEN`. -/
def toy : Build where
  prim := { enc := toyEnc, dec := toyDec, dec_enc := fun k x _ => toyDec_toyEnc k x }

/-- A build with `MAX_DATA_LEN = 1`. -/
def short : Build := { toy with maxDataLen := some 1 }

/-! ### Helpers -/

/-- The `n` bytes that the hex digits of `v` spell, first byte first. -/
def hex (n v : Nat) : ByteSeq := (List.range n).map fun j => BitVec.ofNat 8 (v / 256 ^ (n - 1 - j))

/-- The block that 32 hex digits spell. -/
def blk16 (v : Nat) : Block := ⟨hex 16 v, by simp [hex]⟩

/-- A state with a constructed context. -/
def ready (m : CipherMode) (key : ByteSeq) : State := State.reset.construct m key

/-- The code, output and trace a step ended with. -/
def answer (o : Host.Outcome State Fault Refusal) : Option (BitVec 32 × ByteSeq × List PrimCall) :=
  match o with
  | .next s => s.observed.getLast?.map fun o => (o.response.status, o.response.out, o.trace)
  | .fault _ => none
  | .refused _ => none

/-- The context a step ended with. -/
def context (o : Host.Outcome State Fault Refusal) : Option (Bool × CipherMode × ByteSeq) :=
  match o with
  | .next s => some (s.ctxv, s.mode, s.keyreg)
  | .fault _ => none
  | .refused _ => none

/-- The KAT key, IV and the plaintext `A..T` of 95_test_vectors.md. -/
def K : ByteSeq := hex 16 0x1234567890abcdef1234567890abcdef
def IV : ByteSeq := hex 16 0xfedcba0987654321fedcba0987654321
def AT : ByteSeq := hex 20 0x4142434445464748494a4b4c4d4e4f5051525354

/-! ### Decoding: words written out from R79 -/

theorem test_decode_newctx :
    decode ⟨0b00000000000000000000000000000001#32, { Operands.zero with key := K }⟩ = .ok (.newctx .cfb K) ∧
    decode ⟨0b00000000000000000000000000010001#32, { Operands.zero with key := K }⟩ = .ok (.newctx .ofb K) ∧
    decode ⟨0b00000000000000000000000000100001#32, { Operands.zero with key := K }⟩ = .ok (.newctx .ctr K) ∧
    decode ⟨0b00000000000000000000000000110001#32, { Operands.zero with key := K }⟩ = .ok (.newctx .cbc K) := by
  decide

theorem test_decode_enc :
    decode ⟨0b00000000000000000000000000000010#32, { Operands.zero with iv := IV, data := AT }⟩ = .ok (.enc IV AT) := by
  decide

theorem test_decode_dec :
    decode ⟨0b00000000000000000000000000000011#32, { Operands.zero with iv := IV, data := AT }⟩ = .ok (.dec IV AT) := by
  decide

theorem test_decode_bxor :
    decode ⟨0b00000000000000000000000000000100#32, { Operands.zero with a := blk16 1, b := blk16 2 }⟩ =
      .ok (.bxor (blk16 1) (blk16 2)) := by
  decide

theorem test_decode_ctrinc :
    decode ⟨0b00000000000000000000000000000101#32, { Operands.zero with a := blk16 1 }⟩ = .ok (.ctrinc (blk16 1)) := by
  decide

theorem test_decode_rejects_by_name :
    decode (tableCommand 0x00) = .error .reservedOpcode ∧ decode (tableCommand 0x06) = .error .reservedOpcode ∧
    decode (tableCommand 0x0f) = .error .reservedOpcode ∧ decode (tableCommand 0x12) = .error .modeOutsideNewctx ∧
    decode (tableCommand 0x43) = .error .reservedBits ∧ decode (tableCommand 0x80000001) = .error .reservedBits := by
  decide

theorem test_encode_words :
    encodeWord (.newctx .cfb K) = 0x01#32 ∧ encodeWord (.newctx .ofb K) = 0x11#32 ∧
    encodeWord (.newctx .ctr K) = 0x21#32 ∧ encodeWord (.newctx .cbc K) = 0x31#32 := by
  decide

/-! ### WellFormed: an ill-formed term for its one check -/

theorem test_wellFormed_refuses_long_data :
    WellFormed short (.enc IV (hex 2 0)) = false ∧ WellFormed short (.dec IV (hex 2 0)) = false ∧
    WellFormed short (.enc IV (hex 1 0)) = true := by
  decide

theorem test_long_data_is_refused :
    encOn short IV (hex 2 0) State.reset = .refused .dataTooLong ∧
    decOn short IV (hex 2 0) State.reset = .refused .dataTooLong := ⟨rfl, rfl⟩

/-! ### The commands (95_test_vectors.md §2) -/

/-- §2.7: a context is constructed, and replaced by the next. -/
theorem test_newctx_replaces_context :
    context (newctxOn toy .ofb K (ready .cbc K)) = some (true, .ofb, K) ∧
    answer (newctxOn toy .ofb K (ready .cbc K)) = some (0#32, [], []) := by
  decide

/-- §2.7: a 15-byte key fails and keeps the old context. -/
theorem test_newctx_invalid_key_keeps_context :
    context (newctxOn toy .cfb (hex 15 0) (ready .cbc K)) = some (true, .cbc, K) ∧
    answer (newctxOn toy .cfb (hex 15 0) (ready .cbc K)) = some (4#32, [], []) := by
  decide

/-- §2.3 to §2.6: ENC in the four modes. -/
theorem test_enc_vectors :
    answer (encOn toy IV AT (ready .cfb K)) = some (0#32, hex 20 0x8fcc1cbbb0aeab5987c414b3b8a6a3418f7abe9c,
      [.E (blk16 0xfedcba0987654321fedcba0987654321), .E (blk16 0x8fcc1cbbb0aeab5987c414b3b8a6a341)]) ∧
    answer (encOn toy IV AT (ready .ofb K)) = some (0#32, hex 20 0x8fcc1cbbb0aeab5987c414b3b8a6a341cd39fad9,
      [.E (blk16 0xfedcba0987654321fedcba0987654321), .E (blk16 0xce8e5ffff5e8ec11ce8e5ffff5e8ec11)]) ∧
    answer (encOn toy (hex 16 0xff) (hex 17 0) (ready .ctr K)) =
      some (0#32, hex 17 0x1234567890abcdef1234567890ab32ef12, [.E (blk16 0xff), .E (blk16 0x100)]) ∧
    answer (encOn toy IV (hex 16 0x59454c4c4f57205355424d4152494e45) (ready .cbc K)) =
      some (0#32, hex 32 0x8bc213b0a2c8bf448cc31eadbca6a948c037f6ca48049973c13aebd426129574,
        [.E (blk16 0xa799f645c8326372ab9ef748d52c0d64), .E (blk16 0x9bd203a0b2d8af549cd30ebdacb6b958)]) := by
  decide

/-- §2.3 and §2.6: DEC in CFB and CBC: a pad of which only the last byte is checked, a bad pad, and a pad of 16. -/
theorem test_dec_vectors :
    answer (decOn toy IV (hex 20 0x8fcc1cbbb0aeab5987c414b3b8a6a3418f7abe9c) (ready .cfb K)) = some (0#32, AT,
      [.E (blk16 0xfedcba0987654321fedcba0987654321), .E (blk16 0x8fcc1cbbb0aeab5987c414b3b8a6a341)]) ∧
    answer (decOn toy IV (hex 16 0x8fcf1ebeb4a9ad508fcf1ebef2ebee50) (ready .cbc K)) =
      some (0#32, hex 14 0x4141414141414141414141414107, [.D (blk16 0x8fcf1ebeb4a9ad508fcf1ebef2ebee50)]) ∧
    answer (decOn toy IV (hex 16 0x8fcf1ebeb4a9ad508fcf1ebeb4a9fd50) (ready .cbc K)) =
      some (3#32, [], [.D (blk16 0x8fcf1ebeb4a9ad508fcf1ebeb4a9fd50)]) ∧
    answer (decOn toy IV (hex 16 0xde9e4fefe5f8fc01de9e4fefe5f8fc01) (ready .cbc K)) =
      some (0#32, [], [.D (blk16 0xde9e4fefe5f8fc01de9e4fefe5f8fc01)]) := by
  decide

/-- §2.6 and §2.7: DEC's errors that make no primitive call, in the order of R207. -/
theorem test_dec_error_order :
    answer (decOn toy IV [] (ready .cbc K)) = some (3#32, [], []) ∧
    answer (decOn toy IV (hex 17 0) (ready .cbc K)) = some (2#32, [], []) ∧
    answer (decOn toy (hex 15 0) (hex 31 0) (ready .cbc K)) = some (1#32, [], []) ∧
    answer (decOn toy (hex 15 0) [] State.reset) = some (5#32, [], []) := by
  decide

/-- §2.1. -/
theorem test_bxor_vector :
    answer (execBxor (blk16 0x00112233445566778899aabbccddeeff) (blk16 0xffffffffffffffff0000000000000000)
      State.reset) = some (0#32, hex 16 0xffeeddccbbaa99888899aabbccddeeff, []) := by
  decide

/-- §2.2. -/
theorem test_ctrinc_vectors :
    answer (execCtrinc (blk16 0xffffffffffffffffffffffffffffffff) State.reset) = some (0#32, hex 16 0, []) ∧
    answer (execCtrinc (blk16 0x7fffffffffffffffffffffffffffffff) State.reset) =
      some (0#32, hex 16 0x80000000000000000000000000000000, []) ∧
    answer (execCtrinc (blk16 0xfffffffffffffffffffffffffffffffe) State.reset) =
      some (0#32, hex 16 0xffffffffffffffffffffffffffffffff, []) ∧
    answer (execCtrinc (blk16 0x12ffff00000000000000000000000000) State.reset) =
      some (0#32, hex 16 0x12ffff00000000000000000000000001, []) := by
  decide

/-! ### The step -/

theorem test_step_illegal_word :
    answer (step (State.reset.withFetchWord 32 0x12)) = some (6#32, [], []) := by decide

theorem test_step_reads_operands :
    answer (step (State.reset.issue (encode (.bxor (blk16 3) (blk16 5))))) = some (0#32, hex 16 6, []) := by decide

/-- Whether a step answered a next state. -/
def isNext (o : Host.Outcome State Fault Refusal) : Bool :=
  match o with
  | .next _ => true
  | .fault _ => false
  | .refused _ => false

theorem test_step_runs_each_row_after_reset :
    isNext (step (State.reset.withFetchWord 32 0x01)) = true ∧ isNext (step (State.reset.withFetchWord 32 0x02)) = true ∧
    isNext (step (State.reset.withFetchWord 32 0x03)) = true ∧ isNext (step (State.reset.withFetchWord 32 0x04)) = true ∧
    isNext (step (State.reset.withFetchWord 32 0x05)) = true := by
  decide

/-- A bounded machine: one byte is carried, two are refused (R75). -/
theorem test_step_of_bounded_build :
    stepOn short (State.reset.issue (encode (.enc IV (hex 2 0)))) = .refused .dataTooLong ∧
    answer (stepOn short ((ready .cfb K).issue (encode (.enc IV (hex 1 0))))) =
      some (0#32, [0xce#8], [.E (blk16 0xfedcba0987654321fedcba0987654321)]) := ⟨rfl, by decide⟩

/-! ### The assembler (R77) -/

theorem test_assemble_literals :
    Asm.assemble [] (.enc (.hex "fE00".toList) (.ascii "A\\n".toList) "out") =
      some ⟨0x02#32, { Operands.zero with iv := hex 2 0xfe00, data := hex 2 0x410a }⟩ := by
  decide

/-! ### Witnesses: for each obligation with hypotheses, a state and operands that meet them -/

/-- A state in which the host does `a` next. -/
def hostDoes (a : HostAction) (s : State) : State := { s with host := [a] }

/-- IllegalWordIsAnsweredAndChangesNothing: the boundary of each way to be illegal. -/
theorem witness_illegalWord :
    (hostDoes (.command (tableCommand 0x12)) State.reset).host = .command (tableCommand 0x12) :: [] ∧
    (0x00#32).toNat % 16 = 0 ∧ 6 ≤ (0x06#32).toNat % 16 ∧ 6 ≤ (0x0f#32).toNat % 16 ∧ (0x41#32).toNat / 64 ≠ 0 ∧
    ((0x12#32).toNat / 16 % 4 ≠ 0 ∧ (0x12#32).toNat % 16 ≠ 1) := by
  decide

/-- StepRunsTheDecodedCommand, FirstErrorInOrderIsReported, CommandsAreAnsweredInIssueOrder, EveryResponseIsLegal. -/
theorem witness_command :
    (hostDoes (.command (tableCommand 0x04)) State.reset).host = [tableCommand 0x04].map .command ∧
    decode (tableCommand 0x04) = .ok (.bxor Block.zero Block.zero) ∧
    ∃ t, runCommand (tableCommand 0x04) State.reset = .next t := ⟨rfl, by decide, _, rfl⟩

/-- FirstErrorInOrderIsReported: each error of the order where the next does not yet apply, and none. -/
theorem witness_firstError :
    firstError (tableCommand 0x00) State.reset = some .illegalCommand ∧
    firstError (encode (.dec (hex 15 0) (hex 31 0))) State.reset = some .noContext ∧
    firstError (encode (.dec (hex 15 0) (hex 31 0))) (ready .cbc K) = some .invalidIVLength ∧
    firstError (encode (.enc (hex 17 0) [])) (ready .cfb K) = some .invalidIVLength ∧
    firstError (encode (.dec IV (hex 31 0))) (ready .cbc K) = some .invalidCiphertextLength ∧
    firstError (encode (.dec IV (hex 31 0))) (ready .cfb K) = none ∧
    firstError (encode (.dec IV [])) (ready .cbc K) = none := by
  decide

/-- IdleEngineKeepsItsState, ResetActionClearsTheEngine. -/
theorem witness_idle_and_reset :
    State.reset.host = [] ∧ (hostDoes .reset (ready .cbc K)).host = .reset :: [] := ⟨rfl, rfl⟩

/-- IncrementCarriesThroughTrailingFF: both clauses at the ends of the block. -/
theorem witness_increment :
    (blk16 0xff).bytes[15]? = some 0xFF#8 ∧
    (blk16 0xff).bytes[14]? = some 0x00#8 ∧ (blk16 0xff).bytes[15]? = some 0xFF#8 ∧
    (blk16 0).bytes[0]? = some 0x00#8 ∧ (blk16 0).bytes[15]? ≠ some 0xFF#8 := by
  decide

/-- FullBlocksAndTailAreTheBytesInOrder, BlkInvertsTheBigEndianInteger. -/
theorem witness_blocks : 1 < nFull (hex 40 0) ∧ 15 < 16 ∧ 2 ^ 128 - 1 < 2 ^ 128 := by decide

/-- NoContextFailsEncAndDec, WrongIvLengthFailsEncAndDec, CiphertextLengthIsCheckedForCbcDecOnly. -/
theorem witness_errors :
    State.reset.ctxv = false ∧ (ready .ofb K).ctxv = true ∧ (hex 15 0).length ≠ 16 ∧ (hex 17 0).length ≠ 16 ∧
    (ready .cbc K).ctxv = true ∧ (ready .cbc K).mode = .cbc ∧ (hex 1 0).length % 16 ≠ 0 ∧ (hex 31 0).length % 16 ≠ 0 ∧
    exec (.dec IV (hex 31 0)) (ready .cbc K) = .next ((ready .cbc K).completed .invalidCiphertextLength [] []) :=
  ⟨rfl, rfl, by decide, by decide, rfl, rfl, by decide, by decide, rfl⟩

/-- OnlyDataOverTheBoundIsRefused: DATA at the bound of a build that sets one, and one byte over it. -/
theorem witness_bound :
    (∀ m, short.maxDataLen = some m → (hex 1 0).length ≤ m) ∧ ∃ m, short.maxDataLen = some m ∧ m < (hex 2 0).length :=
  ⟨fun m h => by cases h; decide, 1, rfl, by decide⟩

/-- MachineOfEveryBuildRefusesOnlyLongData: a next command over the bound, and one within it. -/
theorem witness_builds :
    (State.reset.issue (encode (.dec IV (hex 2 0)))).NextDataTooLong short ∧
    ¬ (State.reset.issue (encode (.dec IV (hex 1 0)))).NextDataTooLong short := by
  refine ⟨⟨encode (.dec IV (hex 2 0)), [], IV, hex 2 0, 1, rfl, .inr (by decide), rfl, by decide⟩, ?_⟩
  rintro ⟨c, rest, iv, data, m, hh, hd, hm, hl⟩
  cases hh
  rw [show decode (encode (.dec IV (hex 1 0))) = .ok (.dec IV (hex 1 0)) by decide] at hd
  cases hm
  rcases hd with hd | hd <;> cases hd
  exact absurd hl (by decide)

/-- DefaultKeyTestAcceptsSixteenBytes: a build with the default, and a key on each side of it. -/
theorem witness_default_keys :
    toy.prim.keyValid = Config.defaultKeyValid ∧ K.length = 16 ∧ (hex 15 0).length ≠ 16 := by
  refine ⟨rfl, by decide, by decide⟩

/-- ErrorsChangeNoState: an answered command, with an error of an instruction, of a word, and without. -/
theorem witness_answers :
    runCommand (encode (.enc IV AT)) State.reset = .next (State.reset.completed .noContext [] []) ∧
    runCommand (tableCommand 0x06) State.reset = .next (State.reset.completed .illegalCommand [] []) ∧
    exec (.bxor Block.zero Block.zero) State.reset = .next (State.reset.completed .ok Block.zero.bytes []) := by
  refine ⟨rfl, rfl, rfl⟩

/-- PrimitiveCallCountsOfCommands, OutputWidthsOfOkCommands. -/
theorem witness_ok :
    ∃ t o, exec (.enc IV []) (ready .cbc K) = .next t ∧ t.observed = (ready .cbc K).observed ++ [o] ∧
      o.response.status = StatusCode.ok.word := ⟨_, _, rfl, rfl, rfl⟩

/-- PrimitiveCallCountsOfCommands: a failed command, with `InvalidPadding` and with another error. -/
theorem witness_failed :
    exec (.dec IV []) (ready .cbc K) = .next ((ready .cbc K).completed .invalidPadding [] []) ∧
    exec (.dec IV []) State.reset = .next (State.reset.completed .noContext [] []) ∧
    StatusCode.invalidPadding.word ≠ StatusCode.ok.word ∧ StatusCode.noContext.word ≠ StatusCode.invalidPadding.word :=
  ⟨rfl, rfl, by decide, by decide⟩

/-- NoCommandReadsAnEarlierCommandsRegisters: a state between commands, and one the fault could reach. -/
theorem witness_idle : State.reset.Idle ∧ ¬ (State.reset.setCr Block.zero).Idle := by
  simp [State.Idle, State.reset, State.setCr]

/-- The results of CFB, OFB, CTR and CBC, and their round trips. -/
theorem witness_ready (m : CipherMode) :
    (ready m K).ctxv = true ∧ (ready m K).mode = m ∧ (Block.ofBytes? IV).isSome = true ∧
    SameContext (ready m K) (hostDoes .reset (ready m K)) := ⟨rfl, rfl, rfl, rfl, rfl, rfl⟩

/-- CbcDecryptionChainsAndUnpads: no block, and two blocks. -/
theorem witness_cbcDec : ([] : ByteSeq).length % 16 = 0 ∧ (hex 32 0).length % 16 = 0 := by decide

/-- CfbDecryptionErrorStaysLocal: two ciphertexts that differ in block 0 only. -/
theorem witness_cfb_local :
    (hex 1 0).length = (hex 1 1).length ∧ ∀ k, k ≠ 0 → slice (hex 1 0) k = slice (hex 1 1) k := by
  refine ⟨by decide, fun k hk => ?_⟩
  have h : ∀ v, (hex 1 v).drop (16 * k) = [] := fun v => List.drop_of_length_le (by simp [hex]; omega)
  simp [slice, h]

/-- CbcRoundTrip, on the TOY build, whose DATA has no bound. -/
theorem witness_cbc_roundTrip :
    (ready .cbc K).ctxv = true ∧ (ready .cbc K).mode = .cbc ∧ toy.prim.keyValid (ready .cbc K).keyreg = true ∧
    SameContext (ready .cbc K) (ready .cbc K) ∧
    ∀ m, toy.maxDataLen = some m → 16 * (AT.length / 16 + 1) ≤ m :=
  ⟨rfl, rfl, by decide, ⟨rfl, rfl, rfl⟩, fun _ h => by cases h⟩

/-- AnswersDependOnTheContextAlone, ContextIsUnobservableWhileInvalid, ResetLeavesNoContextAndIdleChannel. -/
theorem witness_contexts :
    SameContext (ready .ctr K) (hostDoes .reset (ready .ctr K)) ∧ State.reset.ctxv = false ∧
    ({ State.reset with mode := .cbc, keyreg := K } : State).ctxv = false ∧
    exec (.ctrinc Block.zero) State.reset = .next (State.reset.completed .ok (blk16 1).bytes []) :=
  ⟨⟨rfl, rfl, rfl⟩, rfl, rfl, congrArg Host.Outcome.next (show State.completed _ _ (inc128 Block.zero).bytes _ = _ by decide)⟩

/-- StepKeepsTheInvariant, OnlyNewctxAndResetWriteTheContext. -/
theorem witness_inv : State.reset.Inv Config.build ∧ step State.reset = .next State.reset :=
  ⟨by simp [State.Inv, State.Idle, State.reset], rfl⟩

end Sys2Proof.Tests
end

section
/-! PROOFS. The statements of 00_scope.md: the machine of every build, its bound on DATA (R9, R75) and its key test
(R9, R160, R161). -/

namespace Sys2Proof.Machine

open Sys2Proof

/-! ### NEWCTX and the key test -/

/-- NEWCTX on any build, as a next state (R160, R161). -/
theorem execOn_newctx (b : Build) (m : CipherMode) (key : ByteSeq) (s : State) :
    execOn b (.newctx m key) s = .next (if b.prim.keyValid key then
      { s.completed .ok [] [] with ctxv := true, mode := m, keyreg := key }
    else s.completed .invalidKey [] []) := by
  rw [execOn_eq, if_pos (show WellFormed b (.newctx m key) = true from rfl), State.withContextOf, answerOf]
  split <;> rfl

theorem defaultKeyValid_iff (key : ByteSeq) : Config.defaultKeyValid key = true ↔ key.length = 16 := by
  simp [Config.defaultKeyValid]

/-! ### The bound on DATA -/

theorem accepts_eq_false_iff (b : Build) (data : ByteSeq) :
    b.accepts data = false ↔ ∃ m, b.maxDataLen = some m ∧ m < data.length := by
  simp [← Bool.not_eq_true, Build.accepts_iff]

/-- A command is over the bound when it is an ENC or DEC with DATA over it (R75). -/
theorem wellFormed_eq_false_iff (b : Build) (i : Instr) :
    WellFormed b i = false ↔
      ∃ iv data m, (i = .enc iv data ∨ i = .dec iv data) ∧ b.maxDataLen = some m ∧ m < data.length := by
  cases i with
  | newctx m key => simp [WellFormed]
  | enc iv data => simp [WellFormed, accepts_eq_false_iff]
  | dec iv data => simp [WellFormed, accepts_eq_false_iff]
  | bxor x y => simp [WellFormed]
  | ctrinc x => simp [WellFormed]

theorem State.nextDataTooLong_iff (b : Build) (s : State) :
    s.NextDataTooLong b ↔
      ∃ c rest i, s.host = .command c :: rest ∧ decode c = .ok i ∧ WellFormed b i = false := by
  simp only [wellFormed_eq_false_iff]
  constructor
  · rintro ⟨c, rest, iv, data, m, hh, hd | hd, hm, hl⟩
    · exact ⟨c, rest, _, hh, hd, iv, data, m, .inl rfl, hm, hl⟩
    · exact ⟨c, rest, _, hh, hd, iv, data, m, .inr rfl, hm, hl⟩
  · rintro ⟨c, rest, i, hh, hd, iv, data, m, rfl | rfl, hm, hl⟩
    · exact ⟨c, rest, iv, data, m, hh, .inl hd, hm, hl⟩
    · exact ⟨c, rest, iv, data, m, hh, .inr hd, hm, hl⟩

/-! ### The step of a build -/

theorem stepOn_refused {b : Build} {s : State} (h : s.NextDataTooLong b) :
    stepOn b s = .refused .dataTooLong := by
  obtain ⟨c, rest, i, hh, hd, hw⟩ := (s.nextDataTooLong_iff b).1 h
  rw [stepOn, stepWith_command hh, runWith_ok hd, execOn_eq, hw]
  rfl

/-- A command a step takes off the channel is within the bound, unless it is the one that is over it. -/
theorem wellFormed_of_not_nextDataTooLong {b : Build} {s : State} (h : ¬ s.NextDataTooLong b)
    {c : Command} {rest : List HostAction} {i : Instr} (hh : s.host = .command c :: rest) (hd : decode c = .ok i) :
    WellFormed b i = true := by
  by_contra hw
  exact h ((s.nextDataTooLong_iff b).2 ⟨c, rest, i, hh, hd, Bool.eq_false_of_not_eq_true hw⟩)

/-- A step within the bound answers a next state. -/
theorem stepOn_next {b : Build} {s : State} (h : ¬ s.NextDataTooLong b) : ∃ s', stepOn b s = .next s' := by
  obtain ⟨-, ho⟩ | ⟨rest, -, ho⟩ | ⟨c, rest, e, -, -, ho⟩ | ⟨c, rest, i, hh, hd, ho⟩ :=
    stepWith_cases (rfl : stepOn b s = stepOn b s)
  · exact ⟨_, ho⟩
  · exact ⟨_, ho⟩
  · exact ⟨_, ho⟩
  · rw [execOn_eq, if_pos (wellFormed_of_not_nextDataTooLong h hh hd)] at ho
    exact ⟨_, ho⟩

/-- Two machines that run the next command alike make the same step. -/
theorem stepWith_congr {run run' : Instr → State → Host.Outcome State Fault Refusal} {s : State}
    (h : ∀ c rest i, s.host = .command c :: rest → decode c = .ok i →
      run i { s with host := rest } = run' i { s with host := rest }) :
    stepWith run s = stepWith run' s := by
  obtain ⟨hh, ho⟩ | ⟨rest, hh, ho⟩ | ⟨c, rest, e, hh, hd, ho⟩ | ⟨c, rest, i, hh, hd, ho⟩ :=
    stepWith_cases (rfl : stepWith run s = stepWith run s)
  · rw [ho, stepWith_idle hh]
  · rw [ho, stepWith_reset hh]
  · rw [ho, stepWith_command hh, runWith_illegal hd]
  · rw [ho, stepWith_command hh, runWith_ok hd, h c rest i hh hd]

theorem stepOn_unbounded {b : Build} {s : State} (h : ¬ s.NextDataTooLong b) :
    stepOn b s = stepOn { b with maxDataLen := none } s :=
  stepWith_congr fun _ _ i hh hd => execOn_unbounded b i _ (wellFormed_of_not_nextDataTooLong h hh hd)

theorem stepOn_ne_fault (b : Build) (s : State) (f : Fault) : stepOn b s ≠ .fault f := by
  by_cases h : s.NextDataTooLong b
  · simp [stepOn_refused h]
  · obtain ⟨s', hs⟩ := stepOn_next h
    simp [hs]

theorem stepOn_eq_refused_iff (b : Build) (s : State) (r : Refusal) :
    stepOn b s = .refused r ↔ r = .dataTooLong ∧ s.NextDataTooLong b := by
  by_cases h : s.NextDataTooLong b
  · simp [stepOn_refused h, h, eq_comm]
  · obtain ⟨s', hs⟩ := stepOn_next h
    simp [hs, h]

/-! ### The obligations -/

/-- Settles O44: the machine of `Config.build` by the laws of the step, the rest by whether the next command is over the
bound. -/
theorem machineOfEveryBuildRefusesOnlyLongData : Obligations.MachineOfEveryBuildRefusesOnlyLongData :=
  ⟨step_eq_stepOn, core_eq_coreOn, rfl, fun b s =>
    ⟨stepOn_ne_fault b s, stepOn_eq_refused_iff b s, stepOn_unbounded⟩⟩

/-- Settles O45: what NEWCTX does on any build, with the default key test read as a test of the length. -/
theorem defaultKeyTestAcceptsSixteenBytes : Obligations.DefaultKeyTestAcceptsSixteenBytes := by
  intro b hb m key s
  simp only [execOn_newctx, hb, defaultKeyValid_iff]

end Sys2Proof.Machine
end

section
/-! PROOFS. The statements of 10_state.md: who writes the context (R26, R28, R29), the per-command registers between
commands (R35), legal responses (R27), the state after reset (R36), and the invariant every step keeps. -/

namespace Sys2Proof.Machine

open Sys2Proof

/-! ### Commands and steps of the machine of `Config.build` -/

/-- `Config.build` has no bound on DATA. -/
theorem wellFormed_build (i : Instr) : WellFormed Config.build i = true := by cases i <;> rfl

/-- Every command completes: its answer, and the context it leaves. -/
theorem exec_eq (i : Instr) (s : State) :
    exec i s = .next ((s.withContextOf Config.build i).answered (answerOf Config.build s i)) := by
  rw [exec_eq_execOn, execOn_eq, if_pos (wellFormed_build i)]

/-- What an illegal word is answered with (R201). -/
def illegalAnswer : Answer := ⟨.illegalCommand, [], []⟩

theorem illegalCommand_eq (s : State) : illegalCommand s = .next (s.answered illegalAnswer) := rfl

/-- Everything a command, legal or not, can do. -/
theorem runCommand_cases {c : Command} {s t : State} (h : runCommand c s = .next t) :
    ((∃ e, decode c = .error e) ∧ t = s.answered illegalAnswer) ∨
    ∃ i, decode c = .ok i ∧ t = (s.withContextOf Config.build i).answered (answerOf Config.build s i) := by
  cases hd : decode c with
  | error e =>
    rw [runCommand, runWith_illegal hd, illegalCommand_eq] at h
    cases h
    exact .inl ⟨⟨e, rfl⟩, rfl⟩
  | ok i =>
    rw [runCommand, runWith_ok hd, exec_eq] at h
    cases h
    exact .inr ⟨i, rfl, rfl⟩

/-- Everything a step that answers a next state can do. -/
theorem step_cases {s t : State} (h : step s = .next t) :
    (s.host = [] ∧ t = s) ∨
    (∃ rest, s.host = .reset :: rest ∧ t = ({ s with host := rest } : State).applyReset) ∨
    ∃ c rest, s.host = .command c :: rest ∧ runCommand c { s with host := rest } = .next t := by
  obtain ⟨hh, ho⟩ | ⟨rest, hh, ho⟩ | ⟨c, rest, e, hh, hd, ho⟩ | ⟨c, rest, i, hh, hd, ho⟩ := stepWith_cases h
  · cases ho
    exact .inl ⟨hh, rfl⟩
  · cases ho
    exact .inr (.inl ⟨rest, hh, rfl⟩)
  · exact .inr (.inr ⟨c, rest, hh, by rw [runCommand, runWith_illegal hd, ho]⟩)
  · exact .inr (.inr ⟨c, rest, hh, by rw [runCommand, runWith_ok hd, ho]⟩)

theorem step_ne_fault (s : State) (f : Fault) : step s ≠ .fault f := by
  rw [step_eq_stepOn]
  exact stepOn_ne_fault Config.build s f

/-! ### What an answer leaves -/

/-- What the host sees of an answer (R27, R30). -/
def Answer.observation (a : Answer) : Observation := ⟨⟨a.code.word, a.out⟩, a.trace⟩

@[simp] theorem State.answered_observed (s : State) (a : Answer) :
    (s.answered a).observed = s.observed ++ [a.observation] := rfl

theorem State.answered_idle (s : State) (a : Answer) : (s.answered a).Idle := ⟨rfl, rfl, rfl, rfl, rfl⟩

/-! ### The context a command leaves -/

/-- Who writes the context (R26, R28, R29, R160). -/
theorem State.withContextOf_cases (s : State) (b : Build) (i : Instr) :
    s.withContextOf b i = s ∨
    ∃ m key, i = .newctx m key ∧ b.prim.keyValid key = true ∧ s.withContextOf b i = s.construct m key := by
  cases i with
  | newctx m key =>
    by_cases hk : b.prim.keyValid key = true
    · exact .inr ⟨m, key, rfl, hk, if_pos hk⟩
    · exact .inl (if_neg hk)
  | enc iv data => exact .inl rfl
  | dec iv data => exact .inl rfl
  | bxor x y => exact .inl rfl
  | ctrinc x => exact .inl rfl

@[simp] theorem State.withContextOf_observed (s : State) (b : Build) (i : Instr) :
    (s.withContextOf b i).observed = s.observed := by
  obtain h | ⟨m, key, -, -, h⟩ := s.withContextOf_cases b i
  · rw [h]
  · rw [h, State.construct_observed]

/-! ### Legal responses -/

/-- An answer with an error has no output (R27, R208). -/
def Answer.NoOutputOnError (a : Answer) : Prop := a.code ≠ .ok → a.out = []

theorem Answer.noOutputOnError_of_ok {a : Answer} (h : a.code = .ok) : a.NoOutputOnError := fun hne => absurd h hne

theorem Answer.noOutputOnError_error (e : StatusCode) (tr : List PrimCall) : (⟨e, [], tr⟩ : Answer).NoOutputOnError :=
  fun _ => rfl

theorem illegalAnswer_noOutputOnError : illegalAnswer.NoOutputOnError := Answer.noOutputOnError_error _ _

theorem cbcDecAnswer_noOutputOnError (D : Block → Block) (iv : Block) (c : ByteSeq) :
    (cbcDecAnswer D iv c).NoOutputOnError := by
  unfold cbcDecAnswer
  split
  · split
    · exact Answer.noOutputOnError_error _ _
    · split
      · exact Answer.noOutputOnError_of_ok rfl
      · exact Answer.noOutputOnError_error _ _
  · exact Answer.noOutputOnError_error _ _

theorem encModeAnswer_code (P : Primitive) (key : ByteSeq) (m : CipherMode) (iv : Block) (data : ByteSeq) :
    (encModeAnswer P key m iv data).code = .ok := by
  cases m <;> rfl

theorem decModeAnswer_noOutputOnError (P : Primitive) (key : ByteSeq) (m : CipherMode) (iv : Block) (data : ByteSeq) :
    (decModeAnswer P key m iv data).NoOutputOnError := by
  cases m with
  | cfb => exact Answer.noOutputOnError_of_ok rfl
  | ofb => exact Answer.noOutputOnError_of_ok rfl
  | ctr => exact Answer.noOutputOnError_of_ok rfl
  | cbc => exact cbcDecAnswer_noOutputOnError (P.dec key) iv data

theorem checkedAnswer_noOutputOnError (v : Bool) (iv : ByteSeq) {k : Block → Answer}
    (hk : ∀ x, (k x).NoOutputOnError) : (checkedAnswer v iv k).NoOutputOnError := by
  unfold checkedAnswer
  split
  · split
    · exact hk _
    · exact Answer.noOutputOnError_error _ _
  · exact Answer.noOutputOnError_error _ _

theorem answerOf_noOutputOnError (b : Build) (s : State) (i : Instr) : (answerOf b s i).NoOutputOnError := by
  cases i with
  | newctx m key =>
    rw [answerOf]
    split
    · exact Answer.noOutputOnError_error _ _
    · exact Answer.noOutputOnError_error _ _
  | enc iv data =>
    exact checkedAnswer_noOutputOnError _ _ fun v =>
      Answer.noOutputOnError_of_ok (encModeAnswer_code b.prim s.keyreg s.mode v data)
  | dec iv data =>
    exact checkedAnswer_noOutputOnError _ _ fun v =>
      decModeAnswer_noOutputOnError b.prim s.keyreg s.mode v data
  | bxor x y => exact Answer.noOutputOnError_of_ok rfl
  | ctrinc x => exact Answer.noOutputOnError_of_ok rfl

/-- The STATUS word of every code has its reserved bits zero and a `CODE` of at most 6, and OK's
is 0 (R27, R200). -/
theorem StatusCode.word_fields (c : StatusCode) :
    statusReservedField c.word = 0 ∧ (statusCodeField c.word).toNat ≤ 6 ∧ (c.word ≠ 0 → c ≠ .ok) := by
  cases c <;> decide

theorem Answer.NoOutputOnError.legal {a : Answer} (h : a.NoOutputOnError) : a.observation.response.Legal := by
  obtain ⟨hreserved, hcode, hok⟩ := a.code.word_fields
  exact ⟨hreserved, hcode, fun hne => h (hok hne)⟩

/-! ### The invariant of the states between commands -/

theorem State.reset_inv (b : Build) : State.reset.Inv b :=
  ⟨⟨rfl, rfl, rfl, rfl, rfl⟩, nofun, nofun⟩

/-- A reset leaves no context and keeps the responses seen so far (R230). -/
theorem State.Inv.applyReset {b : Build} {s : State} (h : s.Inv b) : s.applyReset.Inv b :=
  have ⟨hidle, hkey, _⟩ := State.reset_inv b
  have ⟨_, _, hlegal⟩ := h
  ⟨hidle, hkey, hlegal⟩

/-- The key of a new context is one the primitive accepts (R31, R160). -/
theorem State.Inv.withContextOf {b : Build} {s : State} (h : s.Inv b) (i : Instr) : (s.withContextOf b i).Inv b := by
  obtain hc | ⟨m, key, -, hk, hc⟩ := s.withContextOf_cases b i
  · rwa [hc]
  · obtain ⟨hidle, -, hlegal⟩ := h
    rw [hc]
    exact ⟨hidle, fun _ => hk, hlegal⟩

theorem State.Inv.answered {b : Build} {s : State} (h : s.Inv b) {a : Answer} (ha : a.NoOutputOnError) :
    (s.answered a).Inv b := by
  obtain ⟨-, hkey, hlegal⟩ := h
  refine ⟨s.answered_idle a, hkey, fun o ho => ?_⟩
  rw [State.answered_observed, List.mem_append, List.mem_singleton] at ho
  obtain ho | rfl := ho
  · exact hlegal o ho
  · exact ha.legal

theorem State.Inv.runCommand {c : Command} {s t : State} (h : s.Inv Config.build) (hr : runCommand c s = .next t) :
    t.Inv Config.build := by
  obtain ⟨-, rfl⟩ | ⟨i, -, rfl⟩ := runCommand_cases hr
  · exact h.answered illegalAnswer_noOutputOnError
  · exact (h.withContextOf i).answered (answerOf_noOutputOnError _ _ i)

/-! ### What an answer depends on -/

/-- A command starts from absent per-command registers, so it finds nothing an earlier one left (R35). -/
theorem exec_discard (i : Instr) (s : State) : exec i s.discard = exec i s := by cases i <;> rfl

/-- Without a context a command answers from its operands alone (R28, R29). -/
theorem answerOf_eq_of_no_context (b : Build) {s t : State} (hs : s.ctxv = false) (ht : t.ctxv = false) (i : Instr) :
    answerOf b s i = answerOf b t i := by
  cases i with
  | newctx m key => rfl
  | enc iv data => simp [answerOf, checkedAnswer, hs, ht]
  | dec iv data => simp [answerOf, checkedAnswer, hs, ht]
  | bxor x y => rfl
  | ctrinc x => rfl

theorem exec_observed {i : Instr} {s t : State} (h : exec i s = .next t) :
    t.observed = s.observed ++ [(answerOf Config.build s i).observation] := by
  rw [exec_eq] at h
  cases h
  rw [State.answered_observed, State.withContextOf_observed]

theorem answersAlike_of_answerOf_eq {i : Instr} {s t : State}
    (h : answerOf Config.build s i = answerOf Config.build t i) : AnswersAlike i s t := fun _ hs =>
  ⟨_, _, exec_eq i t, exec_observed hs, by rw [h]; exact exec_observed (exec_eq i t)⟩

/-! ### The obligations -/

/-- Settles O22, by what a step can do and, for a legal command, by who writes the context. -/
theorem onlyNewctxAndResetWriteTheContext : Obligations.OnlyNewctxAndResetWriteTheContext := by
  intro s t h
  obtain ⟨-, rfl⟩ | ⟨rest, hh, rfl⟩ | ⟨c, rest, hh, hr⟩ := step_cases h
  · exact .inl ⟨rfl, rfl, rfl⟩
  · exact .inr (.inl ⟨rest, hh, rfl⟩)
  · obtain ⟨-, rfl⟩ | ⟨i, hd, rfl⟩ := runCommand_cases hr
    · exact .inl ⟨rfl, rfl, rfl⟩
    · obtain hc | ⟨m, key, rfl, hk, hc⟩ := State.withContextOf_cases { s with host := rest } Config.build i
      · rw [hc]
        exact .inl ⟨rfl, rfl, rfl⟩
      · rw [hc]
        exact .inr (.inr ⟨c, rest, m, key, hh, hd, hk, rfl, rfl, rfl⟩)

/-- Settles O42, by what a step can do: idling, a reset and a command each keep the invariant. -/
theorem stepKeepsTheInvariant : Obligations.StepKeepsTheInvariant := by
  intro s t hs h
  obtain ⟨-, rfl⟩ | ⟨rest, -, rfl⟩ | ⟨c, rest, -, hr⟩ := step_cases h
  · exact hs
  · exact State.Inv.applyReset hs
  · exact State.Inv.runCommand (s := { s with host := rest }) hs hr

/-- Settles O25: an illegal word is answered without output, and so is every error of a legal one. -/
theorem everyResponseIsLegal : Obligations.EveryResponseIsLegal := by
  intro c s t h
  obtain ⟨-, rfl⟩ | ⟨i, -, rfl⟩ := runCommand_cases h
  · exact ⟨illegalAnswer.observation, s.answered_observed illegalAnswer, illegalAnswer_noOutputOnError.legal⟩
  · exact ⟨(answerOf Config.build s i).observation, exec_observed (exec_eq i s),
      (answerOf_noOutputOnError Config.build s i).legal⟩

/-- Settles O26: every command ends by an answer, which leaves the registers absent, and starts by discarding them. -/
theorem noCommandReadsAnEarlierCommandsRegisters : Obligations.NoCommandReadsAnEarlierCommandsRegisters := by
  refine ⟨fun i s t h => ?_, fun s hs => ?_, fun i s f h => ?_, step_ne_fault, fun i s cr ks bidx out tr => ?_⟩
  · rw [exec_eq] at h
    cases h
    exact State.answered_idle _ _
  · obtain ⟨hcr, hks, hbidx, hout, -⟩ := hs
    simp [readCr, readKs, readBidx, readOut, hcr, hks, hbidx, hout]
  · rw [exec_eq] at h
    cases h
  · exact (exec_discard i _).symm.trans (exec_discard i s)

/-- Settles O41: without a context the two answers are equal. -/
theorem contextIsUnobservableWhileInvalid : Obligations.ContextIsUnobservableWhileInvalid := fun i _ _ hs ht =>
  answersAlike_of_answerOf_eq (answerOf_eq_of_no_context Config.build hs ht i)

/-- Settles O9: the registers by the values of State.reset, the answers because it has no context. -/
theorem resetLeavesNoContextAndIdleChannel : Obligations.ResetLeavesNoContextAndIdleChannel :=
  ⟨rfl, ⟨rfl, rfl, rfl, rfl, rfl⟩, rfl, rfl, fun _ _ i => contextIsUnobservableWhileInvalid i _ _ rfl rfl⟩

/-- Settles O43, by the values of State.reset. -/
theorem resetMeetsTheInvariant : Obligations.ResetMeetsTheInvariant := State.reset_inv

end Sys2Proof.Machine
end

section
/-! PROOFS. The statements of 20_memory.md: blocks as big-endian integers (R51), full blocks and tails (R52), output
widths (R54), responses in issue order (R55), and what an answer depends on (R56, R165). -/

namespace Sys2Proof

/-! ### Byte sequences as big-endian integers -/

/-- A byte sequence of any length as a big-endian integer; on the bytes of a block it is `int` (R51). -/
def bigEndian (l : ByteSeq) : Nat := l.foldl (fun n x => 256 * n + x.toNat) 0

theorem Block.int_eq_bigEndian (b : Block) : b.int = bigEndian b.bytes := rfl

@[simp] theorem bigEndian_nil : bigEndian [] = 0 := rfl

/-- The last byte is the least significant one. -/
@[simp] theorem bigEndian_append_singleton (l : ByteSeq) (x : Byte) :
    bigEndian (l ++ [x]) = 256 * bigEndian l + x.toNat := by
  simp [bigEndian]

/-- Byte `j` weighs 256 to the number of bytes after it. -/
theorem bigEndian_eq_sum (l : ByteSeq) :
    bigEndian l = ((List.range l.length).map fun j => (l.getD j 0).toNat * 256 ^ (l.length - 1 - j)).sum := by
  induction l using List.reverseRecOn with
  | nil => rfl
  | append_singleton l x ih =>
    have hshift : ∀ j ∈ List.range l.length, ((l ++ [x]).getD j 0).toNat * 256 ^ (l.length - j) =
        256 * ((l.getD j 0).toNat * 256 ^ (l.length - 1 - j)) := by
      intro j hj
      rw [List.mem_range] at hj
      rw [List.getD_append _ _ _ _ hj, show l.length - j = l.length - 1 - j + 1 by omega]
      ring
    simp only [List.length_append, List.length_singleton, Nat.add_sub_cancel, List.range_succ, List.map_append,
      List.map_congr_left hshift, List.sum_append, List.sum_map_mul_left, ← ih, bigEndian_append_singleton]
    simp

/-- Byte `j` is a base-256 digit of the integer. -/
theorem bigEndian_digit (l : ByteSeq) (j : Nat) (h : j < l.length) :
    bigEndian l / 256 ^ (l.length - 1 - j) % 256 = l[j].toNat := by
  induction l using List.reverseRecOn with
  | nil => simp at h
  | append_singleton l x ih =>
    have hx : x.toNat < 256 := x.isLt
    by_cases hj : j < l.length
    · have hdiv : (256 * bigEndian l + x.toNat) / 256 = bigEndian l := by omega
      rw [List.getElem_append_left hj, ← ih hj, bigEndian_append_singleton,
        show (l ++ [x]).length - 1 - j = l.length - 1 - j + 1 by simp; omega, Nat.pow_succ', ← Nat.div_div_eq_div_mul,
        hdiv]
    · obtain rfl : j = l.length := by rw [List.length_append, List.length_singleton] at h; omega
      simp [Nat.mod_eq_of_lt hx]

/-- The last `k` base-256 digits of `n`, written out, read back as `n` modulo `256 ^ k`. -/
theorem bigEndian_digits (k n : Nat) :
    bigEndian ((List.range k).map fun j => BitVec.ofNat 8 (n / 256 ^ (k - 1 - j))) = n % 256 ^ k := by
  induction k generalizing n with
  | zero => simp [Nat.mod_one]
  | succ k ih =>
    have hshift : ∀ j ∈ List.range k,
        BitVec.ofNat 8 (n / 256 ^ (k - j)) = BitVec.ofNat 8 (n / 256 / 256 ^ (k - 1 - j)) := by
      intro j hj
      rw [List.mem_range] at hj
      rw [Nat.div_div_eq_div_mul, ← Nat.pow_succ', show k - j = (k - 1 - j).succ by omega]
    rw [Nat.add_sub_cancel, List.range_succ, List.map_append, List.map_congr_left hshift, List.map_singleton,
      bigEndian_append_singleton, ih (n / 256), Nat.pow_succ', Nat.mod_mul]
    simp [Nat.add_comm]

theorem Block.int_blk (n : Nat) : (Block.blk n).int = n % 2 ^ 128 := bigEndian_digits 16 n

theorem Block.blk_int (b : Block) : Block.blk b.int = b := by
  ext1
  refine List.ext_getElem (by simp) fun j _ h => ?_
  have hd := bigEndian_digit b.bytes j h
  rw [b.length_bytes] at hd
  apply BitVec.eq_of_toNat_eq
  simpa [Block.blk, Block.int_eq_bigEndian] using hd

/-! ### The obligations on the forms of the operands -/

/-- Settles O15, by the digits of a byte sequence of any length read as a big-endian integer. -/
theorem blkInvertsTheBigEndianInteger : Obligations.BlkInvertsTheBigEndianInteger := by
  refine ⟨fun b => ?_, Block.blk_int, fun n hn => ?_⟩
  · rw [Block.int_eq_bigEndian, bigEndian_eq_sum, b.length_bytes]
  · rw [Block.int_blk, Nat.mod_eq_of_lt hn]

/-- Settles O16: a full block is a slice of the sequence, and the tail is what follows the full blocks. -/
theorem fullBlocksAndTailAreTheBytesInOrder : Obligations.FullBlocksAndTailAreTheBytesInOrder := by
  refine fun s => ⟨fun i h j hj => ?_, length_tailBytes s, Nat.div_add_mod s.length 16, fun j => List.getElem?_drop⟩
  rw [chunk_bytes, Machine.slice, List.getElem?_take_of_lt hj, List.getElem?_drop]

end Sys2Proof

namespace Sys2Proof.Machine

open Sys2Proof

/-! ### Responses in issue order -/

@[simp] theorem State.answered_host (s : State) (a : Answer) : (s.answered a).host = s.host := rfl

@[simp] theorem State.withContextOf_host (s : State) (b : Build) (i : Instr) : (s.withContextOf b i).host = s.host := by
  obtain h | ⟨m, key, -, -, h⟩ := s.withContextOf_cases b i
  · rw [h]
  · rw [h, State.construct_host]

/-- Every command, legal or not, gives one response and leaves the channel alone (R55). -/
theorem runCommand_responds (c : Command) (s : State) :
    ∃ t o, runCommand c s = .next t ∧ t.host = s.host ∧ t.observed = s.observed ++ [o] := by
  cases hd : decode c with
  | error e =>
    exact ⟨_, _, (runWith_illegal hd).trans (illegalCommand_eq s), rfl, s.answered_observed illegalAnswer⟩
  | ok i => exact ⟨_, _, (runWith_ok hd).trans (exec_eq i s), by simp, exec_observed (exec_eq i s)⟩

/-- A step takes one command off the channel and gives one response to it. -/
theorem step_command {s : State} {c : Command} {rest : List HostAction} (h : s.host = .command c :: rest) :
    ∃ t o, step s = .next t ∧ t.host = rest ∧ t.observed = s.observed ++ [o] := by
  rw [step, stepWith_command h]
  exact runCommand_responds c { s with host := rest }

theorem core_run_succ {s t : State} (h : step s = .next t) (n : Nat) :
    Sys2Proof.core.run (n + 1) s = Sys2Proof.core.run n t := by
  simp only [Host.Core.run, show Sys2Proof.core.step s = .next t from h]

/-- Settles O10, by induction on the number of steps: the first answers the first command, and the others answer the
commands that remain. -/
theorem commandsAreAnsweredInIssueOrder : Obligations.CommandsAreAnsweredInIssueOrder := by
  intro cs s hs n hn
  induction n generalizing cs s with
  | zero => exact ⟨s, [], rfl, hs, (List.append_nil _).symm, rfl⟩
  | succ n ih =>
    cases cs with
    | nil => simp at hn
    | cons c cs =>
      obtain ⟨u, o, hstep, hhost, hobs⟩ := step_command hs
      obtain ⟨t, os, hrun, hthost, htobs, hlen⟩ := ih cs u hhost (Nat.le_of_succ_le_succ hn)
      exact ⟨t, o :: os, (core_run_succ hstep n).trans hrun, hthost, by simp [htobs, hobs],
        congrArg (· + 1) hlen⟩

/-! ### What an answer depends on -/

/-- A command answers from the context and its operands (R56, R165). -/
theorem answerOf_eq_of_sameContext (b : Build) {s t : State} (h : SameContext s t) (i : Instr) :
    answerOf b s i = answerOf b t i := by
  obtain ⟨hv, hm, hk⟩ := h
  cases i with
  | newctx m key => rfl
  | enc iv data => rw [answerOf, answerOf, hv, hm, hk]
  | dec iv data => rw [answerOf, answerOf, hv, hm, hk]
  | bxor x y => rfl
  | ctrinc x => rfl

/-- Settles O40: under the same context the two answers are equal. -/
theorem answersDependOnTheContextAlone : Obligations.AnswersDependOnTheContextAlone := fun i _ _ h =>
  answersAlike_of_answerOf_eq (answerOf_eq_of_sameContext Config.build h i)

/-! ### Output widths -/

theorem StatusCode.eq_ok_of_word_eq {c : StatusCode} (h : c.word = StatusCode.ok.word) : c = .ok := by
  revert h
  cases c <;> decide

theorem answerOf_newctx_out (b : Build) (s : State) (m : CipherMode) (key : ByteSeq) :
    (answerOf b s (.newctx m key)).out = [] := by
  rw [answerOf]
  split <;> rfl

/-- An OK from ENC or DEC is the answer of the engine, on the IV as a block. -/
theorem checkedAnswer_of_ok {v : Bool} {iv : ByteSeq} {k : Block → Answer} (h : (checkedAnswer v iv k).code = .ok) :
    ∃ x, checkedAnswer v iv k = k x := by
  cases v with
  | false => cases h
  | true =>
    cases hb : Block.ofBytes? iv with
    | none => simp [checkedAnswer, hb] at h
    | some x => exact ⟨x, by simp [checkedAnswer, hb]⟩

theorem length_cbcEncAnswer (E : Block → Block) (iv : Block) (p : ByteSeq) :
    (cbcEncAnswer E iv p).out.length = 16 * (nFull p + 1) := by
  simp [cbcEncAnswer]

/-- An OK from CBC decryption is the one of a whole number of blocks with a good pad (R147, R148). -/
theorem cbcDecAnswer_of_ok {D : Block → Block} {iv : Block} {c : ByteSeq} (h : (cbcDecAnswer D iv c).code = .ok) :
    c.length % 16 = 0 ∧ ∃ p, (cbcPlain D iv c).getLast? = some p ∧ GoodPad p ∧
      (cbcDecAnswer D iv c).out = (cbcPlain D iv c).take ((cbcPlain D iv c).length - p.toNat) := by
  by_cases hl : c.length % 16 = 0
  · cases hp : (cbcPlain D iv c).getLast? with
    | none => simp [cbcDecAnswer, hl, hp] at h
    | some p =>
      by_cases hg : GoodPad p
      · exact ⟨hl, p, rfl, hg, by simp only [cbcDecAnswer, hl, hp, if_true, if_pos hg]⟩
      · simp [cbcDecAnswer, hl, hp, hg] at h
  · simp [cbcDecAnswer, hl] at h

/-- An OK from CBC decryption cuts off from 1 to 16 bytes of whole blocks (R54, R147). -/
theorem length_cbcDecAnswer_of_ok {D : Block → Block} {iv : Block} {c : ByteSeq}
    (h : (cbcDecAnswer D iv c).code = .ok) :
    c.length % 16 = 0 ∧ ∃ p, 1 ≤ p ∧ p ≤ 16 ∧ (cbcDecAnswer D iv c).out.length + p = c.length := by
  obtain ⟨hl, p, hp, ⟨hp1, hp16⟩, hout⟩ := cbcDecAnswer_of_ok h
  have hpos : 0 < (cbcPlain D iv c).length := List.length_pos_of_mem (List.mem_of_getLast? hp)
  rw [length_cbcPlain, nFull] at hpos
  refine ⟨hl, p.toNat, hp1, hp16, ?_⟩
  rw [hout, List.length_take, length_cbcPlain, nFull]
  omega

theorem length_encModeAnswer (P : Primitive) (key : ByteSeq) (m : CipherMode) (iv : Block) (data : ByteSeq) :
    (encModeAnswer P key m iv data).out.length = if m = .cbc then 16 * (nFull data + 1) else data.length := by
  cases m with
  | cfb => exact length_streamOut ..
  | ofb => exact length_streamOut ..
  | ctr => exact length_streamOut ..
  | cbc => exact length_cbcEncAnswer ..

theorem length_decModeAnswer_of_ne_cbc (P : Primitive) (key : ByteSeq) {m : CipherMode} (hm : m ≠ .cbc) (iv : Block)
    (data : ByteSeq) : (decModeAnswer P key m iv data).out.length = data.length := by
  cases m with
  | cfb => exact length_streamOut ..
  | ofb => exact length_streamOut ..
  | ctr => exact length_streamOut ..
  | cbc => exact absurd rfl hm

/-- Settles O29: an OK is the answer of the command's engine, whose width is the one of its mode. -/
theorem outputWidthsOfOkCommands : Obligations.OutputWidthsOfOkCommands := by
  intro i s t o h ho hok
  obtain rfl : (answerOf Config.build s i).observation = o := by simpa [exec_observed h] using ho
  have hcode := StatusCode.eq_ok_of_word_eq hok
  cases i with
  | newctx m key => exact answerOf_newctx_out _ _ _ _
  | enc iv data =>
    obtain ⟨v, hv⟩ := checkedAnswer_of_ok hcode
    simp only [Answer.observation, answerOf, hv, length_encModeAnswer]
    split
    · rfl
    · rfl
  | dec iv data =>
    obtain ⟨v, hv⟩ := checkedAnswer_of_ok hcode
    rw [answerOf, hv] at hcode
    simp only [Answer.observation, answerOf, hv]
    split
    next hm =>
      rw [hm] at hcode ⊢
      exact length_cbcDecAnswer_of_ok hcode
    next hm => exact length_decModeAnswer_of_ne_cbc _ _ hm v data
  | bxor x y => exact Block.length_bytes _
  | ctrinc x => exact Block.length_bytes _

end Sys2Proof.Machine
end

section
/-! PROOFS. The statements of 30_encoding.md: decoder and encoder (R70 to R74, R79), illegal words (R73, R201), the bound
on DATA (R75) and the pseudo-instructions (R78). -/

namespace Sys2Proof

/-! ### The fields of a command word -/

theorem opcField_toNat (w : BitVec 32) : (opcField w).toNat = w.toNat % 16 := by simp [opcField]

theorem modeField_toNat (w : BitVec 32) : (modeField w).toNat = w.toNat / 16 % 4 := by
  simp [modeField, Nat.shiftRight_eq_div_pow]

theorem rsvdField_toNat (w : BitVec 32) : (rsvdField w).toNat = w.toNat / 64 := by
  have := word_eq_fields w
  have := opcField_toNat w
  have := modeField_toNat w
  omega

/-- A word is determined by its fields (R70). -/
theorem word_ext_fields {v w : BitVec 32} (ho : opcField v = opcField w) (hm : modeField v = modeField w)
    (hr : rsvdField v = rsvdField w) : v = w := by
  apply BitVec.eq_of_toNat_eq
  rw [word_eq_fields v, word_eq_fields w, ho, hm, hr]

@[simp] theorem CipherMode.ofBits_toBits (m : CipherMode) : CipherMode.ofBits m.toBits = m := by cases m <;> rfl

@[simp] theorem CipherMode.toBits_ofBits (m : BitVec 2) : (CipherMode.ofBits m).toBits = m := by
  revert m
  decide

/-! ### The fields of an instruction's word -/

/-- The opcode R79 gives an instruction. -/
def Instr.opcode : Instr → BitVec 4
  | .newctx _ _ => 0x1#4
  | .enc _ _ => 0x2#4
  | .dec _ _ => 0x3#4
  | .bxor _ _ => 0x4#4
  | .ctrinc _ => 0x5#4

/-- The `MODE` field R72 gives an instruction. -/
def Instr.modeBits : Instr → BitVec 2
  | .newctx m _ => m.toBits
  | .enc _ _ => 0
  | .dec _ _ => 0
  | .bxor _ _ => 0
  | .ctrinc _ => 0

/-- The opcodes of R79 are 1 to 5, and `MODE` is 0 outside NEWCTX (R72). -/
theorem Instr.opcode_modeBits_bounds (i : Instr) :
    1 ≤ i.opcode.toNat ∧ i.opcode.toNat ≤ 5 ∧ (i.opcode.toNat ≠ 1 → i.modeBits.toNat = 0) := by
  cases i with
  | newctx m key => simp [Instr.opcode]
  | enc iv data => simp [Instr.opcode, Instr.modeBits]
  | dec iv data => simp [Instr.opcode, Instr.modeBits]
  | bxor a b => simp [Instr.opcode, Instr.modeBits]
  | ctrinc a => simp [Instr.opcode, Instr.modeBits]

@[simp] theorem opcField_encodeWord (i : Instr) : opcField (encodeWord i) = i.opcode := by
  cases i with
  | newctx m key => cases m <;> simp [encodeWord, opcField, CipherMode.toBits, Instr.opcode]
  | enc iv data => rfl
  | dec iv data => rfl
  | bxor a b => rfl
  | ctrinc a => rfl

@[simp] theorem modeField_encodeWord (i : Instr) : modeField (encodeWord i) = i.modeBits := by
  cases i with
  | newctx m key => cases m <;> simp [encodeWord, modeField, CipherMode.toBits, Instr.modeBits]
  | enc iv data => simp [encodeWord, modeField, Instr.modeBits]
  | dec iv data => simp [encodeWord, modeField, Instr.modeBits]
  | bxor a b => simp [encodeWord, modeField, Instr.modeBits]
  | ctrinc a => simp [encodeWord, modeField, Instr.modeBits]

@[simp] theorem rsvdField_encodeWord (i : Instr) : rsvdField (encodeWord i) = 0 := by
  cases i with
  | newctx m key => exact (Laws.ReservedFieldsZero.newctx m key).1
  | enc iv data => exact (Laws.ReservedFieldsZero.enc iv data).1
  | dec iv data => exact (Laws.ReservedFieldsZero.dec iv data).1
  | bxor a b => exact (Laws.ReservedFieldsZero.bxor a b).1
  | ctrinc a => exact (Laws.ReservedFieldsZero.ctrinc a).1

/-- The word of an instruction is the one with its fields (R70, R71, R72). -/
theorem eq_encodeWord_iff (w : BitVec 32) (i : Instr) :
    w = encodeWord i ↔ opcField w = i.opcode ∧ modeField w = i.modeBits ∧ rsvdField w = 0 := by
  constructor
  · rintro rfl
    simp
  · rintro ⟨ho, hm, hr⟩
    exact word_ext_fields (by simpa using ho) (by simpa using hm) (by simpa using hr)

end Sys2Proof

namespace Sys2Proof.Machine

open Sys2Proof

/-! ### Decoding and encoding -/

theorem plainCommand_eq_ok_iff {w : BitVec 32} {i j : Instr} :
    plainCommand w j = .ok i ↔ modeField w = 0 ∧ j = i := by
  by_cases h : modeField w = 0
  · rw [plainCommand, if_pos h]
    simp only [h, true_and, Except.ok.injEq]
  · rw [plainCommand, if_neg h]
    simp only [h, false_and, reduceCtorEq]

/-- The branch the decoder takes for each opcode but NEWCTX's: `j` is the instruction of that row. -/
theorem fields_of_plainCommand_eq_ok {c : Command} {i j : Instr} (h : plainCommand c.word j = .ok i)
    (ho : opcField c.word = j.opcode) (hj : j.modeBits = 0) (hr : rsvdField c.word = 0)
    (hops : TakesOperands j c.ops) :
    opcField c.word = i.opcode ∧ modeField c.word = i.modeBits ∧ rsvdField c.word = 0 ∧ TakesOperands i c.ops := by
  obtain ⟨hm, rfl⟩ := plainCommand_eq_ok_iff.1 h
  exact ⟨ho, hm.trans hj.symm, hr, hops⟩

/-- What a legal word's fields and operands are, along the branches of the decoder. -/
theorem fields_of_decode_eq_ok {c : Command} {i : Instr} (h : decode c = .ok i) :
    opcField c.word = i.opcode ∧ modeField c.word = i.modeBits ∧ rsvdField c.word = 0 ∧ TakesOperands i c.ops := by
  unfold decode at h
  split at h
  next hr =>
    split at h
    next ho =>
      cases h
      exact ⟨ho, (CipherMode.toBits_ofBits _).symm, hr, rfl⟩
    split at h
    next ho => exact fields_of_plainCommand_eq_ok h ho rfl hr ⟨rfl, rfl⟩
    split at h
    next ho => exact fields_of_plainCommand_eq_ok h ho rfl hr ⟨rfl, rfl⟩
    split at h
    next ho => exact fields_of_plainCommand_eq_ok h ho rfl hr ⟨rfl, rfl⟩
    split at h
    next ho => exact fields_of_plainCommand_eq_ok h ho rfl hr rfl
    next => cases h
  next => cases h

theorem decode_of_fields {c : Command} {i : Instr} (ho : opcField c.word = i.opcode)
    (hm : modeField c.word = i.modeBits) (hr : rsvdField c.word = 0) (hops : TakesOperands i c.ops) :
    decode c = .ok i := by
  cases i with
  | newctx m key =>
    cases hops
    simp [decode, hr, ho, hm, Instr.opcode, Instr.modeBits]
  | enc iv data =>
    obtain ⟨rfl, rfl⟩ := hops
    simp [decode, hr, ho, plainCommand, hm, Instr.opcode, Instr.modeBits]
  | dec iv data =>
    obtain ⟨rfl, rfl⟩ := hops
    simp [decode, hr, ho, plainCommand, hm, Instr.opcode, Instr.modeBits]
  | bxor a b =>
    obtain ⟨rfl, rfl⟩ := hops
    simp [decode, hr, ho, plainCommand, hm, Instr.opcode, Instr.modeBits]
  | ctrinc a =>
    cases hops
    simp [decode, hr, ho, plainCommand, hm, Instr.opcode, Instr.modeBits]

/-- Everything the decoder accepts (R79): each instruction has one word. -/
theorem decode_eq_ok_iff (c : Command) (i : Instr) :
    decode c = .ok i ↔ c.word = encodeWord i ∧ TakesOperands i c.ops := by
  rw [eq_encodeWord_iff]
  constructor
  · intro h
    obtain ⟨ho, hm, hr, hops⟩ := fields_of_decode_eq_ok h
    exact ⟨⟨ho, hm, hr⟩, hops⟩
  · rintro ⟨⟨ho, hm, hr⟩, hops⟩
    exact decode_of_fields ho hm hr hops

theorem takesOperands_encodeOps (i : Instr) : TakesOperands i (encodeOps i) := by
  cases i with
  | newctx m key => rfl
  | enc iv data => exact ⟨rfl, rfl⟩
  | dec iv data => exact ⟨rfl, rfl⟩
  | bxor a b => exact ⟨rfl, rfl⟩
  | ctrinc a => rfl

theorem decode_encode (i : Instr) : decode (encode i) = .ok i :=
  (decode_eq_ok_iff (encode i) i).2 ⟨rfl, takesOperands_encodeOps i⟩

/-- Settles O3: the fields of a word determine it, and the decoder reads those the encoder writes. -/
theorem decodeInvertsEncode : Obligations.DecodeInvertsEncode := ⟨decode_encode, decode_eq_ok_iff⟩

/-- Settles O1: an accepted word is the one of its instruction, read off the encoder row by row. -/
theorem decodeIsTheOpcodeTable : Obligations.DecodeIsTheOpcodeTable := by
  intro c i
  rw [decode_eq_ok_iff]
  cases i with
  | newctx m key => cases m <;> simp [encodeWord, CipherMode.toBits, TakesOperands, eq_comm (a := key)]
  | enc iv data => simp [encodeWord, TakesOperands, eq_comm (a := iv), eq_comm (a := data)]
  | dec iv data => simp [encodeWord, TakesOperands, eq_comm (a := iv), eq_comm (a := data)]
  | bxor a b => simp [encodeWord, TakesOperands, eq_comm (a := a), eq_comm (a := b)]
  | ctrinc a => simp [encodeWord, TakesOperands, eq_comm (a := a)]

/-- Settles O2, by running the decoder on each word. -/
theorem specWordsDecodeToTheirCommands : Obligations.SpecWordsDecodeToTheirCommands := by
  unfold Obligations.SpecWordsDecodeToTheirCommands
  decide

/-! ### Illegal words -/

/-- A word that decodes has an opcode from 1 to 5, no reserved bit, and no `MODE` outside NEWCTX (R72, R73). -/
theorem legal_of_decode_eq_ok {c : Command} {i : Instr} (h : decode c = .ok i) :
    1 ≤ c.word.toNat % 16 ∧ c.word.toNat % 16 ≤ 5 ∧ c.word.toNat / 64 = 0 ∧
      (c.word.toNat % 16 ≠ 1 → c.word.toNat / 16 % 4 = 0) := by
  obtain ⟨ho, hm, hr, -⟩ := fields_of_decode_eq_ok h
  obtain ⟨hlo, hhi, hmode⟩ := Instr.opcode_modeBits_bounds i
  rw [← opcField_toNat, ← modeField_toNat, ← rsvdField_toNat, ho, hm, hr]
  exact ⟨hlo, hhi, rfl, hmode⟩

/-- Settles O4: a word illegal in one of the four ways decodes to no instruction, so the step answers it as illegal. -/
theorem illegalWordIsAnsweredAndChangesNothing : Obligations.IllegalWordIsAnsweredAndChangesNothing := by
  intro s w ops rest hh hw
  cases hd : decode ⟨w, ops⟩ with
  | ok i =>
    obtain ⟨hlo, hhi, hrsvd, hmode⟩ := legal_of_decode_eq_ok hd
    simp only at hlo hhi hrsvd hmode
    omega
  | error e => rw [step, stepWith_command hh, runWith_illegal hd, illegalCommand_eq, State.answered, illegalAnswer]

/-! ### The bound on DATA -/

/-- A build refuses exactly the commands over its bound (R75). -/
theorem execOn_eq_refused_iff (b : Build) (i : Instr) (s : State) (r : Refusal) :
    execOn b i s = .refused r ↔ r = .dataTooLong ∧ WellFormed b i = false := by
  rw [execOn_eq]
  split
  next h => simp [h]
  next h => simp [h, eq_comm]

/-- Settles O21: ENC and DEC are two commands of the machine of every build, which the bound refuses or leaves alone. -/
theorem onlyDataOverTheBoundIsRefused : Obligations.OnlyDataOverTheBoundIsRefused := by
  refine ⟨fun b iv data s => ⟨fun r => ?_, fun r => ?_, fun h => ?_⟩, fun iv data s => ⟨rfl, rfl, rfl⟩⟩
  · rw [← accepts_eq_false_iff]
    exact execOn_eq_refused_iff b (.enc iv data) s r
  · rw [← accepts_eq_false_iff]
    exact execOn_eq_refused_iff b (.dec iv data) s r
  · have ha := (b.accepts_iff data).2 h
    exact ⟨execOn_unbounded b (.enc iv data) s ha, execOn_unbounded b (.dec iv data) s ha⟩

/-! ### The pseudo-instructions -/

/-- Settles O5: each pseudo-instruction expands to the line it stands for. -/
theorem pseudoInstructionsAssembleToTheirExpansions : Obligations.PseudoInstructionsAssembleToTheirExpansions :=
  fun _ _ _ _ _ => ⟨rfl, rfl, rfl⟩

end Sys2Proof.Machine
end

section
/-! PROOFS. The statements of 40_block_utilities.md: the block XOR and its laws (R100, R103), and the counter
incrementer as a carry and as an addition (R101, R102, R104). -/

namespace Sys2Proof

/-! ### The lanes of the block XOR -/

theorem Block.exists_lane (b : Block) {j : Nat} (hj : j < 16) : ∃ x, b.bytes[j]? = some x :=
  ⟨b.bytes[j]'(by simpa using hj), List.getElem?_eq_getElem _⟩

/-- Blocks are equal when their lanes are. -/
theorem Block.ext_lanes {a b : Block}
    (h : ∀ j (ha : j < a.bytes.length) (hb : j < b.bytes.length), a.bytes[j] = b.bytes[j]) : a = b :=
  Block.ext (List.ext_getElem (by simp) h)

@[simp] theorem Block.getElem_zero (j : Nat) (h : j < Block.zero.bytes.length) : Block.zero.bytes[j] = 0 :=
  List.getElem_replicate _

@[simp] theorem getElem_xor16 (a b : Block) (j : Nat) (h : j < (xor16 a b).bytes.length) :
    (xor16 a b).bytes[j] = a.bytes[j]'(by simpa using h) ^^^ b.bytes[j]'(by simpa using h) :=
  getElem_xorBytes _ _ _ _

theorem getElem?_xorBytes {a b : ByteSeq} {j : Nat} {x y : Byte} (ha : a[j]? = some x) (hb : b[j]? = some y) :
    (xorBytes a b)[j]? = some (x ^^^ y) := by
  simp [xorBytes, List.getElem?_zipWith, ha, hb]

theorem xor16_lane (a b : Block) {j : Nat} (hj : j < 16) :
    ∃ x y, a.bytes[j]? = some x ∧ b.bytes[j]? = some y ∧ (xor16 a b).bytes[j]? = some (x ^^^ y) := by
  obtain ⟨x, hx⟩ := a.exists_lane hj
  obtain ⟨y, hy⟩ := b.exists_lane hj
  exact ⟨x, y, hx, hy, getElem?_xorBytes hx hy⟩

/-! ### The four laws of the block XOR -/

theorem xor16_self (a : Block) : xor16 a a = Block.zero :=
  Block.ext_lanes fun j _ _ => by simp

theorem xor16_zero (a : Block) : xor16 a Block.zero = a :=
  Block.ext_lanes fun j _ _ => by simp

theorem xor16_comm (a b : Block) : xor16 a b = xor16 b a :=
  Block.ext_lanes fun j _ _ => by
    rw [getElem_xor16, getElem_xor16, BitVec.xor_comm]

theorem xor16_xor16_cancel (a b : Block) : xor16 (xor16 a b) b = a :=
  Block.ext_lanes fun j _ _ => by
    rw [getElem_xor16, getElem_xor16, BitVec.xor_assoc, BitVec.xor_self, BitVec.xor_zero]

/-- Settles O12, lane by lane. -/
theorem blockXorLaws : Obligations.BlockXorLaws :=
  ⟨fun a b _ hj => xor16_lane a b hj,
    fun a b h => ⟨by simp [h], fun _ _ _ => getElem?_xorBytes⟩,
    fun a b => ⟨xor16_self a, xor16_zero a, xor16_comm a b, xor16_xor16_cancel a b⟩⟩

/-! ### The increment, byte by byte from the last one -/

/-- A byte overflows under `+ 1` when it is `FF`. -/
theorem byte_add_one_eq_zero_iff (x : Byte) : x + 1 = 0 ↔ x = 0xFF#8 := by
  constructor
  · intro h
    bv_omega
  · rintro rfl
    rfl

/-- A byte other than `FF` takes the 1 without overflow. -/
theorem toNat_byte_add_one {x : Byte} (h : x ≠ 0xFF#8) : (x + 1).toNat = x.toNat + 1 := by
  bv_omega

theorem incFrom_zero_singleton (x : Byte) : incFrom 0 [x] = [x + 1] := rfl

theorem modify_append_left {n : Nat} {l : ByteSeq} (h : n < l.length) (r : ByteSeq) (f : Byte → Byte) :
    (l ++ r).modify n f = l.modify n f ++ r := by
  simp [List.modify_eq_set, List.set_append_left _ _ h, List.getElem?_append_left h]

/-- The increment leaves the bytes right of its start alone. -/
theorem incFrom_append {n : Nat} {l : ByteSeq} (h : n < l.length) (r : ByteSeq) :
    incFrom n (l ++ r) = incFrom n l ++ r := by
  induction n generalizing l with
  | zero => exact modify_append_left h r _
  | succ n ih =>
    have hlen : n + 1 < (l.modify (n + 1) (· + 1)).length := by simpa using h
    simp only [incFrom, modify_append_left h, List.getElem?_append_left hlen]
    split
    · exact ih (Nat.lt_of_succ_lt hlen)
    · rfl

/-- The increment goes on to the bytes before the last one exactly when that one is `FF`. -/
theorem incFrom_append_singleton {n : Nat} {l : ByteSeq} (h : l.length = n + 1) (x : Byte) :
    incFrom (n + 1) (l ++ [x]) = (if x = 0xFF#8 then incFrom n l else l) ++ [x + 1] := by
  have hmod : (l ++ [x]).modify (n + 1) (· + 1) = l ++ [x + 1] := by simp [← h, List.modify_eq_set]
  have hlast : (l ++ [x + 1])[n + 1]? = some (x + 1) := by simp [← h]
  simp only [incFrom, hmod, hlast, Option.some.injEq, byte_add_one_eq_zero_iff]
  split
  · exact incFrom_append (by omega) _
  · rfl

/-! ### The increment as a carry -/

/-- The carry of an increment at the last byte reaches byte `j`: every byte to its right is `FF` (R101). -/
def CarriesTo (r : ByteSeq) (j : Nat) : Prop := ∀ k, j < k → k < r.length → r[k]? = some 0xFF#8

theorem carriesTo_last {r : ByteSeq} {j : Nat} (h : r.length = j + 1) : CarriesTo r j := fun k hj hk => by omega

theorem carriesTo_append_singleton {l : ByteSeq} {j : Nat} (h : j < l.length) (x : Byte) :
    CarriesTo (l ++ [x]) j ↔ x = 0xFF#8 ∧ CarriesTo l j := by
  constructor
  · intro hc
    refine ⟨by simpa using hc l.length h (by simp), fun k hj hk => ?_⟩
    rw [← hc k hj (by simp; omega), List.getElem?_append_left hk]
  · rintro ⟨rfl, hc⟩ k hj hk
    by_cases hkl : k < l.length
    · rw [List.getElem?_append_left hkl, hc k hj hkl]
    · obtain rfl : k = l.length := by rw [List.length_append, List.length_singleton] at hk; omega
      simp

/-- The last byte is always incremented. -/
theorem getElem?_incFrom_last {n : Nat} {l : ByteSeq} (h : l.length = n) (x : Byte) :
    (incFrom n (l ++ [x]))[n]? = some (x + 1) := by
  cases n with
  | zero => simp [List.length_eq_zero_iff.1 h, incFrom_zero_singleton]
  | succ n =>
    rw [incFrom_append_singleton h]
    split <;> simp [length_incFrom, ← h]

/-- The bytes before the last one are incremented when that one is `FF`. -/
theorem getElem?_incFrom_of_lt {n : Nat} {l : ByteSeq} (h : l.length = n + 1) (x : Byte) {j : Nat} (hj : j < n + 1) :
    (incFrom (n + 1) (l ++ [x]))[j]? = if x = 0xFF#8 then (incFrom n l)[j]? else l[j]? := by
  rw [incFrom_append_singleton h]
  split
  · exact List.getElem?_append_left (by rwa [length_incFrom, h])
  · exact List.getElem?_append_left (by rwa [h])

/-- Byte `j` after an increment at the last byte, whether the carry reaches it or not. -/
theorem getElem?_incFrom {n : Nat} {r : ByteSeq} (h : r.length = n + 1) {j : Nat} {x : Byte} (hx : r[j]? = some x) :
    (CarriesTo r j → (incFrom n r)[j]? = some (x + 1)) ∧ (¬ CarriesTo r j → (incFrom n r)[j]? = some x) := by
  obtain ⟨hj, -⟩ := List.getElem?_eq_some_iff.1 hx
  induction r using List.reverseRecOn generalizing n with
  | nil => simp at hj
  | append_singleton l y ih =>
    obtain rfl : l.length = n := by simpa using h
    obtain hj | rfl := Nat.lt_succ_iff_lt_or_eq.1 (h ▸ hj)
    · obtain ⟨n, hn⟩ := Nat.exists_eq_succ_of_ne_zero (Nat.ne_zero_of_lt hj)
      rw [List.getElem?_append_left hj] at hx
      rw [carriesTo_append_singleton hj, hn, getElem?_incFrom_of_lt hn y (by omega)]
      by_cases hy : y = 0xFF#8
      · simpa [hy] using ih hn hx hj
      · simp [hy, hx]
    · obtain rfl : y = x := by simpa using hx
      exact ⟨fun _ => getElem?_incFrom_last rfl y, fun hc => absurd (carriesTo_last h) hc⟩

/-- Settles O14: R101's loop read at one byte, whose right-hand neighbours are the bytes up to lane 15. -/
theorem incrementCarriesThroughTrailingFF : Obligations.IncrementCarriesThroughTrailingFF := by
  intro a j x hx
  obtain ⟨hcarry, hkeep⟩ := getElem?_incFrom a.length_bytes hx
  simp only [CarriesTo, a.length_bytes] at hcarry hkeep
  refine ⟨hcarry, ?_⟩
  rintro ⟨k, hj, hk, hne⟩
  exact hkeep fun hc => hne (hc k hj hk)

/-! ### The increment as an addition -/

theorem bigEndian_lt (l : ByteSeq) : bigEndian l < 256 ^ l.length := by
  induction l using List.reverseRecOn with
  | nil => simp
  | append_singleton l x ih =>
    have hx : x.toNat < 256 := x.isLt
    rw [bigEndian_append_singleton, List.length_append, List.length_singleton, Nat.pow_succ']
    omega

/-- The increment at the last byte adds 1 to the whole sequence as a big-endian integer, with wrap-around (R102). -/
theorem bigEndian_incFrom {n : Nat} {r : ByteSeq} (h : r.length = n + 1) :
    bigEndian (incFrom n r) = (bigEndian r + 1) % 256 ^ (n + 1) := by
  induction r using List.reverseRecOn generalizing n with
  | nil => simp at h
  | append_singleton l x ih =>
    have hl : l.length = n := by simpa using h
    cases n with
    | zero => simp [List.length_eq_zero_iff.1 hl, incFrom_zero_singleton, bigEndian]
    | succ n =>
      rw [incFrom_append_singleton hl, bigEndian_append_singleton, bigEndian_append_singleton, Nat.pow_succ']
      split
      next hx =>
        subst hx
        calc 256 * bigEndian (incFrom n l) + 0
          _ = 256 * ((bigEndian l + 1) % 256 ^ (n + 1)) := by rw [ih hl, Nat.add_zero]
          _ = (256 * bigEndian l + 255 + 1) % (256 * 256 ^ (n + 1)) := (Nat.mul_mod_mul_left ..).symm
      next hx =>
        have hlt := bigEndian_lt l
        have hxlt := (x + 1).isLt
        rw [hl] at hlt
        rw [toNat_byte_add_one hx] at hxlt ⊢
        rw [Nat.add_assoc, Nat.mod_eq_of_lt (by omega)]

theorem int_inc128 (a : Block) : (inc128 a).int = (a.int + 1) % 2 ^ 128 := bigEndian_incFrom a.length_bytes

/-- R102: the loop of R101 is addition of 1 modulo `2 ^ 128`. -/
theorem inc128_eq_blk (a : Block) : inc128 a = Block.blk ((a.int + 1) % 2 ^ 128) := by
  rw [← int_inc128, Block.blk_int]

end Sys2Proof

namespace Sys2Proof.Machine

open Sys2Proof

/-! ### The two commands -/

theorem exec_bxor (a b : Block) (s : State) :
    exec (.bxor a b) s = .next (s.completed .ok (xor16 a b).bytes []) := exec_eq (.bxor a b) s

theorem exec_ctrinc (a : Block) (s : State) :
    exec (.ctrinc a) s = .next (s.completed .ok (inc128 a).bytes []) := exec_eq (.ctrinc a) s

/-- Settles O11: the word is BXOR's row of the opcode table, and its output is the block XOR, lane by lane. -/
theorem bxorReturnsTheLaneXor : Obligations.BxorReturnsTheLaneXor :=
  ⟨fun _ => (decode_eq_ok_iff _ _).2 ⟨rfl, rfl, rfl⟩,
    fun a b s => ⟨xor16 a b, exec_bxor a b s, fun _ hj => xor16_lane a b hj⟩⟩

/-- Settles O13: the word is CTRINC's row of the opcode table, and its output is the incremented block, which is the
block of the sum. -/
theorem ctrincAddsOneModulo128Bits : Obligations.CtrincAddsOneModulo128Bits :=
  ⟨fun _ => (decode_eq_ok_iff _ _).2 ⟨rfl, rfl⟩, fun a s => by rw [exec_ctrinc, inc128_eq_blk]⟩

end Sys2Proof.Machine
end

section
/-! PROOFS. The statements of 41_cfb.md: CFB encryption and decryption as one keystream whose inputs are the IV and the
ciphertext blocks (R110 to R114), the round trip (R115), and how far a change in the ciphertext reaches (R112). -/

namespace Sys2Proof.Machine

open Sys2Proof

/-! ### ENC and DEC with a context and a 16-byte IV -/

theorem checkedAnswer_ready (iv : Block) (k : Block → Answer) : checkedAnswer true iv.bytes k = k iv := by
  simp [checkedAnswer, Block.ofBytes?_bytes]

theorem exec_enc_ready {s : State} (hv : s.ctxv = true) (iv : Block) (data : ByteSeq) :
    exec (.enc iv.bytes data) s = .next (s.answered (encModeAnswer Config.build.prim s.keyreg s.mode iv data)) := by
  rw [exec_eq, answerOf, hv, checkedAnswer_ready, State.withContextOf]

theorem exec_dec_ready {s : State} (hv : s.ctxv = true) (iv : Block) (data : ByteSeq) :
    exec (.dec iv.bytes data) s = .next (s.answered (decModeAnswer Config.build.prim s.keyreg s.mode iv data)) := by
  rw [exec_eq, answerOf, hv, checkedAnswer_ready, State.withContextOf]

/-! ### Slices, byte by byte -/

theorem getElem?_slice (s : ByteSeq) (k : Nat) {j : Nat} (hj : j < 16) : (slice s k)[j]? = s[16 * k + j]? := by
  rw [slice, List.getElem?_take_of_lt hj, List.getElem?_drop]

theorem slice_eq_slice_iff (s t : ByteSeq) (k : Nat) :
    slice s k = slice t k ↔ ∀ j < 16, s[16 * k + j]? = t[16 * k + j]? := by
  constructor
  · intro h j hj
    rw [← getElem?_slice s k hj, h, getElem?_slice t k hj]
  · intro h
    apply List.ext_getElem?
    intro j
    by_cases hj : j < 16
    · rw [getElem?_slice s k hj, getElem?_slice t k hj, h j hj]
    · rw [slice, slice, List.getElem?_take_eq_none (by omega), List.getElem?_take_eq_none (by omega)]

/-! ### Keystream results -/

section KeystreamResults

variable {E : Block → Block} {xs ys : List Block} {p q o o' : ByteSeq}

/-- A byte of a keystream result, as a function of its input block and its data byte. -/
theorem KeystreamResult.getElem?_eq (h : KeystreamResult E xs p o) (j : Nat) :
    o[j]? = xs[j / 16]?.bind fun x => (E x).bytes[j % 16]?.bind fun k => p[j]?.map (k ^^^ ·) := by
  obtain ⟨hlen, -, hbytes⟩ := h
  by_cases hj : j < p.length
  · obtain ⟨x, k, b, hx, hk, hb, ho⟩ := hbytes j hj
    simp [hx, hk, hb, ho]
  · have hp : p[j]? = none := List.getElem?_eq_none (by omega)
    have ho : o[j]? = none := List.getElem?_eq_none (by omega)
    simp [hp, ho]

/-- A slice of a keystream result depends on its input block and its data slice alone. -/
theorem KeystreamResult.slice_congr (h : KeystreamResult E xs p o) (h' : KeystreamResult E ys q o') {k : Nat}
    (hx : xs[k]? = ys[k]?) (hs : slice p k = slice q k) : slice o k = slice o' k := by
  rw [slice_eq_slice_iff] at hs ⊢
  intro j hj
  have hk : (16 * k + j) / 16 = k := by omega
  rw [h.getElem?_eq, h'.getElem?_eq, hk, hx, hs j hj]

theorem KeystreamResult.unique (h : KeystreamResult E xs p o) (h' : KeystreamResult E xs p o') : o = o' :=
  List.ext_getElem? fun j => by rw [h.getElem?_eq, h'.getElem?_eq]

/-- The keystream that takes the data to the output takes the output back to the data. -/
theorem KeystreamResult.symm (h : KeystreamResult E xs p o) : KeystreamResult E xs o p := by
  obtain ⟨hlen, hcalls, hbytes⟩ := h
  refine ⟨hlen.symm, by rw [hcalls, nFull, nFull, tailLen, tailLen, hlen], ?_⟩
  intro j hj
  obtain ⟨x, k, b, hx, hk, hb, ho⟩ := hbytes j (by omega)
  exact ⟨x, k, k ^^^ b, hx, hk, ho, by rw [hb, ← BitVec.xor_assoc, BitVec.xor_self, BitVec.zero_xor]⟩

theorem KeystreamResult.length_inputs_eq (h : KeystreamResult E xs p o) (h' : KeystreamResult E ys q o')
    (hl : p.length = q.length) : xs.length = ys.length := by
  obtain ⟨-, hxs, -⟩ := h
  obtain ⟨-, hys, -⟩ := h'
  rw [hxs, hys, nFull, nFull, tailLen, tailLen, hl]

end KeystreamResults

/-! ### Call inputs chained through the ciphertext -/

section ChainedInputs

variable {E : Block → Block} {xs ys : List Block} {c d : ByteSeq} {iv : Block}

/-- The first input is the IV and each later one the ciphertext block before it (R110, R112). -/
def ChainsCiphertext (iv : Block) (c : ByteSeq) (xs : List Block) : Prop :=
  ∀ i x, xs[i]? = some x → x.bytes = if i = 0 then iv.bytes else slice c (i - 1)

/-- Of two such lists, the inputs at one place are equal where the ciphertext blocks before it are. -/
theorem ChainsCiphertext.getElem?_eq (h : ChainsCiphertext iv c xs) (h' : ChainsCiphertext iv d ys)
    (hl : xs.length = ys.length) {k : Nat} (hs : k ≠ 0 → slice c (k - 1) = slice d (k - 1)) : xs[k]? = ys[k]? := by
  by_cases hk : k < xs.length
  · have hx := List.getElem?_eq_getElem hk
    have hy := List.getElem?_eq_getElem (hl ▸ hk)
    have hbytes : xs[k].bytes = ys[k].bytes := by
      rw [h k _ hx, h' k _ hy]
      split
      · rfl
      · exact hs ‹_›
    rw [hx, hy, Block.ext hbytes]
  · rw [List.getElem?_eq_none (by omega), List.getElem?_eq_none (by omega)]

theorem ChainsCiphertext.unique (h : ChainsCiphertext iv c xs) (h' : ChainsCiphertext iv c ys)
    (hl : xs.length = ys.length) : xs = ys :=
  List.ext_getElem? fun _ => h.getElem?_eq h' hl fun _ => rfl

/-- A keystream command chains through `ct` when each of its full blocks leaves the block of `ct` in `CR`. -/
theorem streamInputs_chainsCiphertext {next : Block → Block → Block} {data ct : ByteSeq}
    (hnext : ∀ i (h : i < nFull data),
      (next (streamCr E next iv data i) (chunk data i h)).bytes = slice ct i) :
    ChainsCiphertext iv ct (streamInputs E next iv data) := by
  intro i x hx
  obtain ⟨hi, rfl⟩ := List.getElem?_eq_some_iff.1 hx
  rw [length_streamInputs, streamCalls] at hi
  rw [getElem_streamInputs]
  cases i with
  | zero => rfl
  | succ i =>
    have hlt : i < nFull data := by split at hi <;> omega
    rw [streamCr_succ _ _ _ _ _ hlt, hnext i hlt]
    rfl

end ChainedInputs

/-! ### The obligations -/

/-- Settles O30: the block put out is the one the next call encrypts. -/
theorem cfbEncryptionChainsItsOutputBlocks : Obligations.CfbEncryptionChainsItsOutputBlocks := by
  refine ⟨fun _ => (decode_eq_ok_iff _ _).2 ⟨rfl, rfl, rfl⟩, fun iv p s hv hm => ?_⟩
  have hexec := exec_enc_ready hv iv p
  rw [hm] at hexec
  exact ⟨_, _, hexec, streamOut_keystreamResult .., streamInputs_chainsCiphertext fun i hi =>
    (slice_streamOut _ _ iv p i hi).symm⟩

/-- Settles O31: the block given is the one the next call encrypts. -/
theorem cfbDecryptionChainsItsInputBlocks : Obligations.CfbDecryptionChainsItsInputBlocks := by
  refine ⟨fun _ => (decode_eq_ok_iff _ _).2 ⟨rfl, rfl, rfl⟩, fun iv c s hv hm => ?_⟩
  have hexec := exec_dec_ready hv iv c
  rw [hm] at hexec
  exact ⟨_, _, hexec, streamOut_keystreamResult .., streamInputs_chainsCiphertext fun i hi => chunk_bytes c i hi⟩

/-- Settles O34: both commands chain the same ciphertext from the same IV, so they make the same calls, and one
keystream undoes itself. -/
theorem cfbRoundTrip : Obligations.CfbRoundTrip := by
  intro iv p s t hv hm ⟨hctxv, hmode, hkey⟩
  obtain ⟨c, xs, henc, hc, hxs⟩ := cfbEncryptionChainsItsOutputBlocks.2 iv p s hv hm
  obtain ⟨q, ys, hdec, hq, hys⟩ := cfbDecryptionChainsItsInputBlocks.2 iv c t (hctxv ▸ hv) (hmode ▸ hm)
  rw [← hkey] at hq
  obtain rfl : xs = ys := ChainsCiphertext.unique hxs hys (hc.symm.length_inputs_eq hq rfl)
  obtain rfl : p = q := hc.symm.unique hq
  exact ⟨c, _, henc, hdec⟩

/-- Settles O36: output block `k` depends on ciphertext block `k` and on the input of call `k`, which is the ciphertext
block before it or the IV. -/
theorem cfbDecryptionErrorStaysLocal : Obligations.CfbDecryptionErrorStaysLocal := by
  intro iv c d i s hv hm hl hcd
  obtain ⟨o, xs, hexec, ho, hxs⟩ := cfbDecryptionChainsItsInputBlocks.2 iv c s hv hm
  obtain ⟨o', ys, hexec', ho', hys⟩ := cfbDecryptionChainsItsInputBlocks.2 iv d s hv hm
  refine ⟨o, o', _, _, hexec, hexec', fun k hk hk' => ho.slice_congr ho' ?_ (hcd k hk)⟩
  exact ChainsCiphertext.getElem?_eq hxs hys (ho.length_inputs_eq ho' hl) fun _ => hcd (k - 1) (by omega)

end Sys2Proof.Machine
end

section
/-! PROOFS. The statements of 42_ofb.md: the OFB keystream (R120, R121, R123), and, for OFB and CTR together, the
self-inverse transforms (R122, R133). -/

namespace Sys2Proof.Machine

open Sys2Proof

/-! ### Keystreams that do not depend on the data -/

theorem streamCalls_congr {data data' : ByteSeq} (h : data.length = data'.length) :
    streamCalls data = streamCalls data' := by
  rw [streamCalls, streamCalls, nFull, nFull, tailLen, tailLen, h]

section IteratedRegister

variable (E f : Block → Block) (iv : Block)

/-- A register that each block replaces by `f` of itself holds `f^i(IV)` before call `i`. -/
theorem streamCr_iterate (data : ByteSeq) {i : Nat} (h : i ≤ nFull data) :
    streamCr E (fun cr _ => f cr) iv data i = f^[i] iv := by
  induction i with
  | zero => rfl
  | succ i ih => rw [streamCr_succ _ _ _ _ _ h, ih (by omega), Function.iterate_succ_apply']

theorem streamInputs_iterate (data : ByteSeq) :
    streamInputs E (fun cr _ => f cr) iv data = (List.range (streamCalls data)).map fun i => f^[i] iv := by
  refine List.map_congr_left fun i hi => streamCr_iterate E f iv data ?_
  rw [List.mem_range, streamCalls] at hi
  split at hi <;> omega

theorem streamInputs_iterate_congr {data data' : ByteSeq} (h : data.length = data'.length) :
    streamInputs E (fun cr _ => f cr) iv data = streamInputs E (fun cr _ => f cr) iv data' := by
  rw [streamInputs_iterate, streamInputs_iterate, streamCalls_congr h]

/-- Such a command undoes itself: on its own output it makes the same calls, and one keystream undoes itself. -/
theorem streamAnswer_iterate_involutive (data : ByteSeq) :
    streamAnswer E (fun cr _ => f cr) iv (streamOut E (fun cr _ => f cr) iv data) =
      ⟨.ok, data, (streamInputs E (fun cr _ => f cr) iv data).map .E⟩ := by
  have hcalls := streamInputs_iterate_congr E f iv (length_streamOut E (fun cr _ => f cr) iv data)
  have hback := streamOut_keystreamResult E (fun cr _ => f cr) iv (streamOut E (fun cr _ => f cr) iv data)
  rw [hcalls] at hback
  have hout := hback.unique (streamOut_keystreamResult E _ iv data).symm
  rw [streamAnswer, hcalls, hout]

end IteratedRegister

/-- In OFB and CTR, ENC and DEC are one keystream command whose register moves on without the data (R121, R132). -/
theorem modeAnswers_eq_streamAnswer (P : Primitive) (key : ByteSeq) {m : CipherMode} (hm : m = .ofb ∨ m = .ctr) :
    ∃ f : Block → Block, encModeAnswer P key m = streamAnswer (P.enc key) (fun cr _ => f cr) ∧
      decModeAnswer P key m = streamAnswer (P.enc key) (fun cr _ => f cr) := by
  obtain rfl | rfl := hm
  · exact ⟨P.enc key, rfl, rfl⟩
  · exact ⟨inc128, rfl, rfl⟩

/-! ### The obligations -/

/-- Settles O32: the register takes the keystream block, so call `i` finds `E^i(IV)` there. -/
theorem ofbFeedsBackItsKeystream : Obligations.OfbFeedsBackItsKeystream := by
  refine ⟨fun _ => (decode_eq_ok_iff _ _).2 ⟨rfl, rfl, rfl⟩, fun _ => (decode_eq_ok_iff _ _).2 ⟨rfl, rfl, rfl⟩,
    fun iv x s hv hm => ?_⟩
  have henc := exec_enc_ready hv iv x
  have hdec := exec_dec_ready hv iv x
  rw [hm] at henc hdec
  refine ⟨_, _, henc, hdec, streamOut_keystreamResult .., fun i y hy => ?_⟩
  rw [streamInputs_iterate] at hy
  obtain ⟨hi, rfl⟩ := List.getElem?_eq_some_iff.1 hy
  rw [List.getElem_map, List.getElem_range]

/-- Settles O35: in both modes the call inputs depend on the IV and the length alone, so a second transform has the
keystream of the first. -/
theorem ofbAndCtrAreSelfInverse : Obligations.OfbAndCtrAreSelfInverse := by
  intro iv x s t hv hm ⟨hctxv, hmode, hkey⟩
  obtain ⟨f, henc, hdec⟩ := modeAnswers_eq_streamAnswer Config.build.prim s.keyreg hm
  have hback := streamAnswer_iterate_involutive (Config.build.prim.enc s.keyreg) f iv x
  have hencX := exec_enc_ready hv iv x
  have hdecX := exec_dec_ready hv iv x
  have hencY := exec_enc_ready (hctxv ▸ hv) iv (streamOut (Config.build.prim.enc s.keyreg) (fun cr _ => f cr) iv x)
  have hdecY := exec_dec_ready (hctxv ▸ hv) iv (streamOut (Config.build.prim.enc s.keyreg) (fun cr _ => f cr) iv x)
  rw [henc] at hencX
  rw [hdec] at hdecX
  rw [← hkey, ← hmode, henc, hback] at hencY
  rw [← hkey, ← hmode, hdec, hback] at hdecY
  exact ⟨_, _, hencX, hdecX, hencY, hdecY⟩

end Sys2Proof.Machine
end

section
/-! PROOFS. The statement of 43_ctr.md: the counter sequence of the CTR keystream (R130, R131, R132, R134). -/

namespace Sys2Proof.Machine

open Sys2Proof

/-! ### The counter after `i` increments -/

theorem int_iterate_inc128 (iv : Block) (i : Nat) : (inc128^[i] iv).int = (iv.int + i) % 2 ^ 128 := by
  induction i with
  | zero => rw [Nat.add_zero, ← Block.int_blk, Block.blk_int, Function.iterate_zero_apply]
  | succ i ih => rw [Function.iterate_succ_apply', int_inc128, ih, Nat.mod_add_mod, Nat.add_assoc]

theorem iterate_inc128_eq_blk (iv : Block) (i : Nat) : inc128^[i] iv = Block.blk ((iv.int + i) % 2 ^ 128) := by
  rw [← int_iterate_inc128, Block.blk_int]

/-! ### The obligation -/

/-- Settles O33: the register is incremented after each block, so call `i`, the tail's included, finds the `i`-th
increment of the IV there. -/
theorem ctrEncryptsTheCounterSequence : Obligations.CtrEncryptsTheCounterSequence := by
  refine ⟨fun _ => (decode_eq_ok_iff _ _).2 ⟨rfl, rfl, rfl⟩, fun _ => (decode_eq_ok_iff _ _).2 ⟨rfl, rfl, rfl⟩,
    fun iv x s hv hm => ?_⟩
  have henc := exec_enc_ready hv iv x
  have hdec := exec_dec_ready hv iv x
  rw [hm] at henc hdec
  refine ⟨_, _, henc, hdec, streamOut_keystreamResult .., fun i y hy => ?_⟩
  rw [streamInputs_iterate] at hy
  obtain ⟨hi, rfl⟩ := List.getElem?_eq_some_iff.1 hy
  rw [List.getElem_map, List.getElem_range, iterate_inc128_eq_blk]

end Sys2Proof.Machine
end

section
/-! PROOFS. The statements of 44_cbc.md: the check of the ciphertext length (R145, R205), encryption with its padding
(R140 to R143), decryption with its unpadding (R146 to R149), and the round trip (R150). -/

namespace Sys2Proof.Machine

open Sys2Proof

/-! ### The ciphertext length -/

theorem cbcDecAnswer_of_partial_block (D : Block → Block) (iv : Block) {c : ByteSeq} (h : c.length % 16 ≠ 0) :
    cbcDecAnswer D iv c = ⟨.invalidCiphertextLength, [], []⟩ := if_neg h

/-- On whole blocks CBC decryption answers OK or `InvalidPadding` (R147, R206). -/
theorem cbcDecAnswer_code_of_whole_blocks (D : Block → Block) (iv : Block) {c : ByteSeq} (h : c.length % 16 = 0) :
    (cbcDecAnswer D iv c).code = .ok ∨ (cbcDecAnswer D iv c).code = .invalidPadding := by
  rw [cbcDecAnswer, if_pos h]
  split
  · exact .inr rfl
  · split
    · exact .inl rfl
    · exact .inr rfl

theorem decModeAnswer_invalidCiphertextLength {P : Primitive} {key : ByteSeq} {m : CipherMode} {iv : Block}
    {data : ByteSeq} (h : (decModeAnswer P key m iv data).code = .invalidCiphertextLength) :
    m = .cbc ∧ data.length % 16 ≠ 0 := by
  cases m with
  | cfb => cases h
  | ofb => cases h
  | ctr => cases h
  | cbc =>
    refine ⟨rfl, fun hl => ?_⟩
    obtain hc | hc := cbcDecAnswer_code_of_whole_blocks (P.dec key) iv hl
    · cases hc.symm.trans h
    · cases hc.symm.trans h

/-- The checks ENC and DEC share raise no `InvalidCiphertextLength`: it is the engine's answer, in a context. -/
theorem checkedAnswer_invalidCiphertextLength {v : Bool} {iv : ByteSeq} {k : Block → Answer}
    (h : (checkedAnswer v iv k).code = .invalidCiphertextLength) :
    v = true ∧ ∃ x, (k x).code = .invalidCiphertextLength := by
  cases v with
  | false => cases h
  | true =>
    cases hb : Block.ofBytes? iv with
    | none => simp [checkedAnswer, hb] at h
    | some x => exact ⟨rfl, x, by simpa [checkedAnswer, hb] using h⟩

/-- Only DEC with a CBC context answers `InvalidCiphertextLength`, and only to a partial block (R205). -/
theorem answerOf_invalidCiphertextLength {b : Build} {s : State} {i : Instr}
    (h : (answerOf b s i).code = .invalidCiphertextLength) :
    ∃ iv data, i = .dec iv data ∧ s.ctxv = true ∧ s.mode = .cbc ∧ data.length % 16 ≠ 0 := by
  cases i with
  | newctx m key =>
    rw [answerOf] at h
    split at h
    · cases h
    · cases h
  | enc iv data =>
    obtain ⟨-, v, hv⟩ := checkedAnswer_invalidCiphertextLength h
    cases (encModeAnswer_code ..).symm.trans hv
  | dec iv data =>
    obtain ⟨hctxv, v, hv⟩ := checkedAnswer_invalidCiphertextLength h
    obtain ⟨hm, hl⟩ := decModeAnswer_invalidCiphertextLength hv
    exact ⟨iv, data, rfl, hctxv, hm, hl⟩
  | bxor x y => cases h
  | ctrinc x => cases h

theorem StatusCode.eq_of_word_eq {c d : StatusCode} (h : c.word = d.word) : c = d := by
  revert h
  cases c <;> cases d <;> decide

/-- A completed command reports the code of its answer. -/
theorem answerOf_code_of_exec {i : Instr} {s u : State} {e : StatusCode} {out : ByteSeq} {tr : List PrimCall}
    (hu : u.observed = s.observed) (h : exec i s = .next (u.completed e out tr)) :
    (answerOf Config.build s i).code = e := by
  have hobs := exec_observed h
  rw [State.completed_observed, hu, List.append_cancel_left_eq, List.singleton_inj, Answer.observation] at hobs
  injection hobs with hresp
  injection hresp with hword
  exact (StatusCode.eq_of_word_eq hword).symm

/-! ### CBC commands with a context and a 16-byte IV -/

theorem encOn_cbc {b : Build} {s : State} (hv : s.ctxv = true) (hm : s.mode = .cbc) (iv : Block) {p : ByteSeq}
    (ha : b.accepts p = true) :
    encOn b iv.bytes p s = .next (s.answered (cbcEncAnswer (b.prim.enc s.keyreg) iv p)) := by
  rw [encOn_ready hv iv ha, encEngine_finish, hm, encModeAnswer]

theorem decOn_cbc {b : Build} {s : State} (hv : s.ctxv = true) (hm : s.mode = .cbc) (iv : Block) {c : ByteSeq}
    (ha : b.accepts c = true) :
    decOn b iv.bytes c s = .next (s.answered (cbcDecAnswer (b.prim.dec s.keyreg) iv c)) := by
  rw [decOn_ready hv iv ha, decEngine_finish, hm, decModeAnswer]

theorem exec_cbcDec {s : State} (hv : s.ctxv = true) (hm : s.mode = .cbc) (iv : Block) (c : ByteSeq) :
    exec (.dec iv.bytes c) s = .next (s.answered (cbcDecAnswer (Config.build.prim.dec s.keyreg) iv c)) :=
  decOn_cbc hv hm iv (Config.build_accepts c)

/-- DEC of a partial block fails before any call (R145, R205). -/
theorem exec_cbcDec_partial_block {s : State} (hv : s.ctxv = true) (hm : s.mode = .cbc) (iv : Block) {c : ByteSeq}
    (h : c.length % 16 ≠ 0) :
    exec (.dec iv.bytes c) s = .next (s.completed .invalidCiphertextLength [] []) := by
  rw [exec_cbcDec hv hm, cbcDecAnswer_of_partial_block _ _ h, State.answered]

/-! ### Chains of block steps -/

theorem xor16_bytes (a b : Block) : (xor16 a b).bytes = xorBytes a.bytes b.bytes := rfl

/-- `CR` before block step `i`, when each step leaves the slice of `s` at its own place there. -/
theorem chainEnd_take_bytes {f : Block → Block → BlockEffect} {iv : Block} {xs : List Block} {s : ByteSeq}
    (hcr : ∀ i (h : i < (chain f iv xs).length), ((chain f iv xs)[i]).cr.bytes = slice s i) {i : Nat}
    (hi : i ≤ xs.length) :
    (chainEnd f iv (xs.take i)).bytes = if i = 0 then iv.bytes else slice s (i - 1) := by
  cases i with
  | zero => rfl
  | succ i =>
    rw [chainEnd_take_succ f iv xs i hi, ← getElem_chain f iv xs i (by simpa using hi), hcr i]
    rfl

/-- The blocks a chain of block steps puts out are the slices of its output. -/
theorem slice_chain_out (f : Block → Block → BlockEffect) (iv : Block) (xs : List Block) (i : Nat)
    (h : i < (chain f iv xs).length) :
    slice (flatBytes ((chain f iv xs).map BlockEffect.out)) i = ((chain f iv xs)[i]).out.bytes := by
  have := slice_flatBytes ((chain f iv xs).map BlockEffect.out) [] i (by simpa using h)
  rwa [List.append_nil, List.getElem_map] at this

/-! ### Encryption -/

/-- The blocks CBC encryption encrypts: the full blocks of the plaintext and its padding block (R140). -/
def paddedBlocks (p : ByteSeq) : List Block := fullBlocks p ++ [padBlock p]

@[simp] theorem length_paddedBlocks (p : ByteSeq) : (paddedBlocks p).length = p.length / 16 + 1 := by
  simp [paddedBlocks, nFull]

/-- They are the bytes of the padded plaintext (R141). -/
theorem flatBytes_paddedBlocks (p : ByteSeq) : flatBytes (paddedBlocks p) = padded p := by
  rw [paddedBlocks, flatBytes_append, flatBytes_cons, flatBytes_nil, List.append_nil, padBlock, ← List.append_assoc,
    flatBytes_fullBlocks_append_tail, padded, padLen, tailLen]

theorem slice_padded (p : ByteSeq) (i : Nat) (h : i < (paddedBlocks p).length) :
    slice (padded p) i = (paddedBlocks p)[i].bytes := by
  rw [← flatBytes_paddedBlocks, ← List.append_nil (flatBytes _), slice_flatBytes _ _ _ h]

/-- The inputs of the calls of CBC encryption: each block XORed with the `CR` it finds (R140). -/
def cbcEncInputs (E : Block → Block) (iv : Block) (xs : List Block) : List Block :=
  xs.mapIdx fun i x => xor16 (chainEnd (cbcEncEffect E) iv (xs.take i)) x

/-- The ciphertext of a list of blocks. -/
def cbcCipher (E : Block → Block) (iv : Block) (xs : List Block) : ByteSeq :=
  flatBytes ((chain (cbcEncEffect E) iv xs).map BlockEffect.out)

@[simp] theorem length_cbcEncInputs (E : Block → Block) (iv : Block) (xs : List Block) :
    (cbcEncInputs E iv xs).length = xs.length := List.length_mapIdx

@[simp] theorem length_cbcCipher (E : Block → Block) (iv : Block) (xs : List Block) :
    (cbcCipher E iv xs).length = 16 * xs.length := by simp [cbcCipher]

@[simp] theorem getElem_cbcEncInputs (E : Block → Block) (iv : Block) (xs : List Block) (i : Nat)
    (h : i < (cbcEncInputs E iv xs).length) :
    (cbcEncInputs E iv xs)[i] =
      xor16 (chainEnd (cbcEncEffect E) iv (xs.take i)) (xs[i]'(by simpa using h)) := List.getElem_mapIdx

theorem chain_cbcEnc_calls (E : Block → Block) (iv : Block) (xs : List Block) :
    (chain (cbcEncEffect E) iv xs).map BlockEffect.call = (cbcEncInputs E iv xs).map .E := by
  apply List.ext_getElem (by simp)
  intro i h1 h2
  rw [List.getElem_map, List.getElem_map, getElem_chain, getElem_cbcEncInputs, cbcEncEffect]

theorem cbcEncAnswer_eq (E : Block → Block) (iv : Block) (p : ByteSeq) :
    cbcEncAnswer E iv p =
      ⟨.ok, cbcCipher E iv (paddedBlocks p), (cbcEncInputs E iv (paddedBlocks p)).map .E⟩ := by
  rw [← chain_cbcEnc_calls, cbcEncAnswer, cbcCipher, paddedBlocks]

/-- Each ciphertext block is the encryption of its input. -/
theorem slice_cbcCipher (E : Block → Block) (iv : Block) (xs : List Block) (i : Nat)
    (h : i < (cbcEncInputs E iv xs).length) :
    slice (cbcCipher E iv xs) i = (E (cbcEncInputs E iv xs)[i]).bytes := by
  rw [cbcCipher, slice_chain_out _ _ _ _ (by simpa using h), getElem_chain, getElem_cbcEncInputs, cbcEncEffect]

/-- Each input is the block XORed with the ciphertext block before it, the IV first (R140). -/
theorem cbcEncInputs_bytes (E : Block → Block) (iv : Block) (xs : List Block) (i : Nat)
    (h : i < (cbcEncInputs E iv xs).length) :
    (cbcEncInputs E iv xs)[i].bytes =
      xorBytes (if i = 0 then iv.bytes else slice (cbcCipher E iv xs) (i - 1)) (xs[i]'(by simpa using h)).bytes := by
  have hcr : ∀ j (h : j < (chain (cbcEncEffect E) iv xs).length),
      ((chain (cbcEncEffect E) iv xs)[j]).cr.bytes = slice (cbcCipher E iv xs) j := fun j h => by
    rw [cbcCipher, slice_chain_out _ _ _ _ h, getElem_chain, cbcEncEffect]
  have hi : i ≤ xs.length := by rw [length_cbcEncInputs] at h; omega
  rw [getElem_cbcEncInputs, xor16_bytes, chainEnd_take_bytes hcr hi]

/-! ### Decryption -/

/-- Each decrypted block is XORed with the ciphertext block before it, the IV first (R146). -/
theorem slice_cbcPlain (D : Block → Block) (iv : Block) (c : ByteSeq) (i : Nat) (h : i < nFull c) :
    slice (cbcPlain D iv c) i =
      xorBytes (D (chunk c i h)).bytes (if i = 0 then iv.bytes else slice c (i - 1)) := by
  have hcr : ∀ j (h : j < (chain (cbcDecEffect D) iv (fullBlocks c)).length),
      ((chain (cbcDecEffect D) iv (fullBlocks c))[j]).cr.bytes = slice c j := fun j h => by
    rw [getElem_chain, cbcDecEffect, getElem_fullBlocks, chunk_bytes]
  rw [cbcPlain, slice_chain_out _ _ _ _ (by simpa using h), getElem_chain, getElem_fullBlocks, cbcDecEffect,
    xor16_bytes, chainEnd_take_bytes hcr (by simpa using Nat.le_of_lt h)]

theorem length_cbcPlain_of_whole_blocks (D : Block → Block) (iv : Block) {c : ByteSeq} (h : c.length % 16 = 0) :
    (cbcPlain D iv c).length = c.length := by
  rw [length_cbcPlain, nFull]
  omega

/-- With no block there is no pad byte, and no call is made (R149). -/
theorem cbcDecAnswer_of_no_block {D : Block → Block} {iv : Block} {c : ByteSeq} (h : c.length % 16 = 0)
    (hp : (cbcPlain D iv c).getLast? = none) : cbcDecAnswer D iv c = ⟨.invalidPadding, [], []⟩ := by
  have hlen := length_cbcPlain_of_whole_blocks D iv h
  rw [List.getLast?_eq_none_iff.1 hp] at hlen
  obtain rfl : c = [] := List.eq_nil_of_length_eq_zero hlen.symm
  rfl

theorem cbcDecAnswer_of_goodPad {D : Block → Block} {iv : Block} {c : ByteSeq} (h : c.length % 16 = 0) {p : Byte}
    (hp : (cbcPlain D iv c).getLast? = some p) (hg : GoodPad p) :
    cbcDecAnswer D iv c = ⟨.ok, (cbcPlain D iv c).take (c.length - p.toNat), (fullBlocks c).map .D⟩ := by
  rw [cbcDecAnswer, if_pos h, hp, length_cbcPlain_of_whole_blocks D iv h]
  exact if_pos hg

theorem cbcDecAnswer_of_badPad {D : Block → Block} {iv : Block} {c : ByteSeq} (h : c.length % 16 = 0) {p : Byte}
    (hp : (cbcPlain D iv c).getLast? = some p) (hg : ¬ GoodPad p) :
    cbcDecAnswer D iv c = ⟨.invalidPadding, [], (fullBlocks c).map .D⟩ := by
  rw [cbcDecAnswer, if_pos h, hp]
  exact if_neg hg

/-! ### The round trip -/

/-- Block by block, decryption takes off the encryption and the XOR, both with the same `CR`. -/
theorem chain_cbcDec_chain_cbcEnc {E D : Block → Block} (hDE : ∀ x, D (E x) = x) (iv : Block) (xs : List Block) :
    (chain (cbcDecEffect D) iv ((chain (cbcEncEffect E) iv xs).map BlockEffect.out)).map BlockEffect.out = xs := by
  induction xs generalizing iv with
  | nil => rfl
  | cons x xs ih =>
    have hx : xor16 (D (E (xor16 iv x))) iv = x := by rw [hDE, xor16_comm iv x, xor16_xor16_cancel]
    exact congrArg₂ List.cons hx (ih (E (xor16 iv x)))

theorem cbcPlain_cbcCipher {E D : Block → Block} (hDE : ∀ x, D (E x) = x) (iv : Block) (xs : List Block) :
    cbcPlain D iv (cbcCipher E iv xs) = flatBytes xs := by
  have hblocks := fullBlocks_flatBytes ((chain (cbcEncEffect E) iv xs).map BlockEffect.out) [] (by simp)
  rw [List.append_nil] at hblocks
  rw [cbcPlain, cbcCipher, hblocks, chain_cbcDec_chain_cbcEnc hDE]

/-- The last byte of a padded plaintext is its pad length, from 1 to 16, and cutting that many bytes leaves the
plaintext (R141, R147). -/
theorem padded_unpads (p : ByteSeq) :
    ∃ x, (padded p).getLast? = some x ∧ GoodPad x ∧ (padded p).take ((padded p).length - x.toNat) = p := by
  obtain ⟨n, hn⟩ : ∃ n, 16 - p.length % 16 = n := ⟨_, rfl⟩
  have hpad : (BitVec.ofNat 8 n).toNat = n := by rw [BitVec.toNat_ofNat]; omega
  refine ⟨BitVec.ofNat 8 n, ?_, ?_, ?_⟩
  · rw [padded, hn, List.getLast?_append, List.getLast?_replicate, if_neg (by omega)]
    rfl
  · rw [GoodPad, hpad]; omega
  · rw [padded, hn, hpad, List.length_append, List.length_replicate, Nat.add_sub_cancel, List.take_left]

/-- CBC decryption answers an encryption with its plaintext. -/
theorem cbcDecAnswer_cbcEncAnswer {E D : Block → Block} (hDE : ∀ x, D (E x) = x) (iv : Block) (p : ByteSeq) :
    cbcDecAnswer D iv (cbcEncAnswer E iv p).out = ⟨.ok, p, (fullBlocks (cbcEncAnswer E iv p).out).map .D⟩ := by
  obtain ⟨x, hlast, hgood, htake⟩ := padded_unpads p
  have hplain : cbcPlain D iv (cbcEncAnswer E iv p).out = padded p := by
    rw [cbcEncAnswer_eq, cbcPlain_cbcCipher hDE, flatBytes_paddedBlocks]
  have hwhole : (cbcEncAnswer E iv p).out.length % 16 = 0 := by rw [length_cbcEncAnswer, Nat.mul_mod_right]
  have hlen := length_cbcPlain_of_whole_blocks D iv hwhole
  rw [← hplain] at hlast
  rw [cbcDecAnswer_of_goodPad hwhole hlast hgood, ← hlen, hplain, htake]

/-! ### The obligations -/

/-- Settles O20: the code of the response is the one of the command's answer, read off command by command. -/
theorem ciphertextLengthIsCheckedForCbcDecOnly : Obligations.CiphertextLengthIsCheckedForCbcDecOnly :=
  ⟨fun iv _ _ hv hm hl => exec_cbcDec_partial_block hv hm iv hl,
    fun _ _ _ _ h => answerOf_invalidCiphertextLength (answerOf_code_of_exec rfl h)⟩

/-- Settles O37: the padded blocks are chained through the ciphertext. -/
theorem cbcEncryptionPadsAndChains : Obligations.CbcEncryptionPadsAndChains := by
  refine ⟨fun _ => (decode_eq_ok_iff _ _).2 ⟨rfl, rfl, rfl⟩, fun iv p s hv hm => ?_⟩
  have hexec := encOn_cbc hv hm iv (Config.build_accepts p)
  rw [cbcEncAnswer_eq] at hexec
  refine ⟨_, _, hexec, by simp, by simp, fun i x hx => ?_⟩
  obtain ⟨hi, rfl⟩ := List.getElem?_eq_some_iff.1 hx
  rw [slice_padded p i (by simpa using hi)]
  exact ⟨cbcEncInputs_bytes _ iv _ i hi, slice_cbcCipher _ iv _ i hi⟩

/-- Settles O38: the calls are made on the blocks of the ciphertext, and `q` is what they give before unpadding. -/
theorem cbcDecryptionChainsAndUnpads : Obligations.CbcDecryptionChainsAndUnpads := by
  refine ⟨fun _ => (decode_eq_ok_iff _ _).2 ⟨rfl, rfl, rfl⟩, fun iv c s hv hm =>
    ⟨exec_cbcDec_partial_block hv hm iv, fun hl => ?_⟩⟩
  refine ⟨cbcPlain (Config.build.prim.dec s.keyreg) iv c, fullBlocks c, length_cbcPlain_of_whole_blocks _ iv hl,
    length_fullBlocks c, fun i x hx => ?_, ?_⟩
  · obtain ⟨hi, rfl⟩ := List.getElem?_eq_some_iff.1 hx
    rw [getElem_fullBlocks]
    exact ⟨chunk_bytes c i _, slice_cbcPlain _ iv c i _⟩
  · rw [exec_cbcDec hv hm]
    cases hp : (cbcPlain (Config.build.prim.dec s.keyreg) iv c).getLast? with
    | none => rw [cbcDecAnswer_of_no_block hl hp, State.answered]
    | some p =>
      by_cases hg : GoodPad p
      · simp only [cbcDecAnswer_of_goodPad hl hp hg, State.answered, if_pos hg]
      · simp only [cbcDecAnswer_of_badPad hl hp hg, State.answered, if_neg hg]

/-- Settles O39: law 2 of R10 takes off each block's encryption, and the last byte of the padded plaintext says how much
was padded. -/
theorem cbcRoundTrip : Obligations.CbcRoundTrip := by
  intro b iv p s t hv hm hkey ⟨hctxv, hmode, hkeyreg⟩ hbound
  have hlen := length_cbcEncAnswer (b.prim.enc s.keyreg) iv p
  have hacceptsP : b.accepts p = true := (b.accepts_iff p).2 fun m hmax => by
    have := hbound m hmax
    omega
  have hacceptsC : b.accepts (cbcEncAnswer (b.prim.enc s.keyreg) iv p).out = true :=
    (b.accepts_iff _).2 fun m hmax => hlen ▸ hbound m hmax
  have henc := encOn_cbc hv hm iv hacceptsP
  have hdec := decOn_cbc (hctxv ▸ hv) (hmode ▸ hm) iv hacceptsC
  rw [← hkeyreg, cbcDecAnswer_cbcEncAnswer fun x => b.prim.dec_enc s.keyreg x hkey] at hdec
  exact ⟨_, _, _, henc, hdec⟩

end Sys2Proof.Machine
end

section
/-! PROOFS. The statements of 45_context_dispatch.md: a step runs the decoded command (R166), and NEWCTX constructs the
context or keeps the old one (R160, R161, R203). -/

namespace Sys2Proof.Machine

open Sys2Proof

/-- A step is its next command, run once it is off the channel. -/
theorem step_eq_runCommand {s : State} {c : Command} {rest : List HostAction} (h : s.host = .command c :: rest) :
    step s = runCommand c { s with host := rest } := stepWith_command h

theorem runCommand_ok {c : Command} {i : Instr} (h : decode c = .ok i) (s : State) : runCommand c s = exec i s :=
  runWith_ok h

/-- A word of NEWCTX's row decodes to NEWCTX of its mode, with the key on the channel (R74, R79). -/
theorem decode_newctx (m : CipherMode) (ops : Operands) :
    decode ⟨encodeWord (.newctx m ops.key), ops⟩ = .ok (.newctx m ops.key) :=
  (decode_eq_ok_iff _ _).2 ⟨rfl, rfl⟩

/-- NEWCTX of the machine, as a next state (R160, R161). -/
theorem exec_newctx (m : CipherMode) (key : ByteSeq) (s : State) :
    exec (.newctx m key) s = .next (if Config.build.prim.keyValid key then
      { s.completed .ok [] [] with ctxv := true, mode := m, keyreg := key }
    else s.completed .invalidKey [] []) :=
  (exec_eq_execOn _ s).trans (execOn_newctx Config.build m key s)

/-! ### The obligations -/

/-- Settles O6: the step takes the command off the channel, and the command runs as what it decodes to. -/
theorem stepRunsTheDecodedCommand : Obligations.StepRunsTheDecodedCommand :=
  fun _ _ _ _ hhost hdecode => (step_eq_runCommand hhost).trans (runCommand_ok hdecode _)

/-- Settles O17: the words are NEWCTX's row of the opcode table, one for each mode, and the next state is the one NEWCTX
has on every build. -/
theorem newctxConstructsOrKeepsTheContext : Obligations.NewctxConstructsOrKeepsTheContext :=
  ⟨fun ops => ⟨decode_newctx .cfb ops, decode_newctx .ofb ops, decode_newctx .ctr ops, decode_newctx .cbc ops⟩,
    exec_newctx⟩

end Sys2Proof.Machine
end

section
/-! PROOFS. The statements of 60_exceptions.md: the errors of the checks ENC and DEC share (R202, R204), the order of
the errors (R207), what an error leaves (R208), and the idle engine (R216). -/

namespace Sys2Proof.Machine

open Sys2Proof

/-! ### The checks ENC and DEC share -/

theorem checkedAnswer_no_context (iv : ByteSeq) (k : Block → Answer) :
    checkedAnswer false iv k = ⟨.noContext, [], []⟩ := rfl

theorem checkedAnswer_wrong_iv {iv : ByteSeq} (h : iv.length ≠ 16) (k : Block → Answer) :
    checkedAnswer true iv k = ⟨.invalidIVLength, [], []⟩ := by
  simp [checkedAnswer, Block.ofBytes?_eq_none h]

/-- ENC and DEC answer a failed check alike, and leave everything but the response as it was (R208). -/
theorem exec_of_failed_check {s : State} {iv : ByteSeq} {e : StatusCode}
    (h : ∀ k, checkedAnswer s.ctxv iv k = ⟨e, [], []⟩) (data : ByteSeq) :
    exec (.enc iv data) s = .next (s.completed e [] []) ∧ exec (.dec iv data) s = .next (s.completed e [] []) := by
  constructor
  · rw [exec_eq, answerOf, h, State.withContextOf, State.answered]
  · rw [exec_eq, answerOf, h, State.withContextOf, State.answered]

/-! ### The first error of R207 -/

/-- The first error of the checks ENC and DEC share, in the order of R207; `rest` is what is found once they pass. -/
def checksError (ctxv : Bool) (iv : ByteSeq) (rest : Option StatusCode) : Option StatusCode :=
  if ctxv = false then some .noContext else if iv.length ≠ 16 then some .invalidIVLength else rest

theorem firstError_illegal {c : Command} {w : IllegalWord} (h : decode c = .error w) (s : State) :
    firstError c s = some .illegalCommand := by
  simp only [firstError, h]

theorem firstError_newctx {c : Command} {m : CipherMode} {key : ByteSeq} (h : decode c = .ok (.newctx m key))
    (s : State) : firstError c s = none := by
  simp only [firstError, h]

theorem firstError_enc {c : Command} {iv data : ByteSeq} (h : decode c = .ok (.enc iv data)) (s : State) :
    firstError c s = checksError s.ctxv iv none := by
  simp only [firstError, h, checksError]

theorem firstError_dec {c : Command} {iv data : ByteSeq} (h : decode c = .ok (.dec iv data)) (s : State) :
    firstError c s = checksError s.ctxv iv
      (if s.mode = .cbc ∧ data.length % 16 ≠ 0 then some .invalidCiphertextLength else none) := by
  simp only [firstError, h, checksError]

/-- The checks answer their first error; once they pass, the engine answers. -/
theorem checkedAnswer_cases (v : Bool) (iv : ByteSeq) (k : Block → Answer) (rest : Option StatusCode) :
    (∃ e, checksError v iv rest = some e ∧ checkedAnswer v iv k = ⟨e, [], []⟩) ∨
    ∃ x, checksError v iv rest = rest ∧ checkedAnswer v iv k = k x := by
  cases v with
  | false => exact .inl ⟨.noContext, rfl, checkedAnswer_no_context iv k⟩
  | true =>
    by_cases hl : iv.length = 16
    · exact .inr ⟨⟨iv, hl⟩, by simp [checksError, hl], checkedAnswer_ready ⟨iv, hl⟩ k⟩
    · exact .inl ⟨.invalidIVLength, by simp [checksError, hl], checkedAnswer_wrong_iv hl k⟩

/-- A DEC that passes the check of its length answers OK, or `InvalidPadding` in CBC (R147, R206). -/
theorem decModeAnswer_code (P : Primitive) (key : ByteSeq) {m : CipherMode} (iv : Block) {data : ByteSeq}
    (h : ¬ (m = .cbc ∧ data.length % 16 ≠ 0)) :
    (decModeAnswer P key m iv data).code = .ok ∨ ((decModeAnswer P key m iv data).code = .invalidPadding ∧ m = .cbc) := by
  cases m with
  | cfb => exact .inl rfl
  | ofb => exact .inl rfl
  | ctr => exact .inl rfl
  | cbc =>
    have hl : data.length % 16 = 0 := not_not.1 fun hne => h ⟨rfl, hne⟩
    exact (cbcDecAnswer_code_of_whole_blocks (P.dec key) iv hl).imp id fun hc => ⟨hc, rfl⟩

/-- A legal command to which an error of R207's order applies answers the first of them. -/
theorem answerOf_of_firstError (b : Build) {c : Command} {i : Instr} {s : State} {e : StatusCode}
    (hd : decode c = .ok i) (he : firstError c s = some e) : answerOf b s i = ⟨e, [], []⟩ := by
  cases i with
  | newctx m key => cases (firstError_newctx hd s).symm.trans he
  | enc iv data =>
    rw [firstError_enc hd] at he
    obtain ⟨e', hc, ha⟩ | ⟨x, hc, -⟩ := checkedAnswer_cases s.ctxv iv _ none
    · cases hc.symm.trans he
      exact ha
    · cases hc.symm.trans he
  | dec iv data =>
    rw [firstError_dec hd] at he
    obtain ⟨e', hc, ha⟩ | ⟨x, hc, ha⟩ := checkedAnswer_cases s.ctxv iv _ _
    · cases hc.symm.trans he
      exact ha
    · have hlen := hc.symm.trans he
      split at hlen
      next hcbc =>
        obtain ⟨hm, hl⟩ := hcbc
        cases hlen
        rw [answerOf, ha, hm]
        exact cbcDecAnswer_of_partial_block _ x hl
      next => cases hlen
  | bxor x y => simp [firstError, hd] at he
  | ctrinc x => simp [firstError, hd] at he

/-- What a legal command answers where no error of R207's order applies. -/
theorem answerOf_of_no_firstError (b : Build) {c : Command} {i : Instr} {s : State} (hd : decode c = .ok i)
    (he : firstError c s = none) :
    (answerOf b s i).code = .ok ∨
    ((answerOf b s i).code = .invalidPadding ∧ s.mode = .cbc ∧ ∃ iv data, i = .dec iv data) ∨
    (answerOf b s i = ⟨.invalidKey, [], []⟩ ∧ ∃ m key, i = .newctx m key) := by
  cases i with
  | newctx m key =>
    rw [answerOf]
    split
    · exact .inl rfl
    · exact .inr (.inr ⟨rfl, m, key, rfl⟩)
  | enc iv data =>
    rw [firstError_enc hd] at he
    obtain ⟨e, hc, -⟩ | ⟨x, -, ha⟩ := checkedAnswer_cases s.ctxv iv _ none
    · cases hc.symm.trans he
    · rw [answerOf, ha]
      exact .inl (encModeAnswer_code ..)
  | dec iv data =>
    rw [firstError_dec hd] at he
    obtain ⟨e, hc, -⟩ | ⟨x, hc, ha⟩ := checkedAnswer_cases s.ctxv iv _ _
    · cases hc.symm.trans he
    · have hlen := hc.symm.trans he
      split at hlen
      next => cases hlen
      next hl =>
        rw [answerOf, ha]
        exact (decModeAnswer_code _ _ x hl).imp id fun ⟨hp, hm⟩ => .inl ⟨hp, hm, iv, data, rfl⟩
  | bxor x y => exact .inl rfl
  | ctrinc x => exact .inl rfl

/-! ### Commands that fail -/

/-- A command that answers an error leaves the context as it was (R208). -/
theorem State.withContextOf_of_error {s : State} {b : Build} {i : Instr} (h : (answerOf b s i).code ≠ .ok) :
    s.withContextOf b i = s := by
  obtain hc | ⟨m, key, rfl, hk, -⟩ := s.withContextOf_cases b i
  · exact hc
  · exact absurd (by rw [answerOf, if_pos hk]) h

/-- No error of R207's order applies to NEWCTX, the one command that writes the context. -/
theorem State.withContextOf_of_firstError (b : Build) {c : Command} {i : Instr} {s : State} {e : StatusCode}
    (hd : decode c = .ok i) (he : firstError c s = some e) : s.withContextOf b i = s := by
  obtain hc | ⟨m, key, rfl, -, -⟩ := s.withContextOf_cases b i
  · exact hc
  · cases (firstError_newctx hd s).symm.trans he

/-- A command, legal or not, is answered with its first error, and nothing else changes (R207, R208). -/
theorem runCommand_of_firstError {c : Command} {s : State} {e : StatusCode} (he : firstError c s = some e) :
    runCommand c s = .next (s.completed e [] []) := by
  cases hd : decode c with
  | error w =>
    rw [firstError_illegal hd] at he
    cases he
    rw [runCommand, runWith_illegal hd, illegalCommand_eq, State.answered, illegalAnswer]
  | ok i =>
    rw [runCommand_ok hd, exec_eq, answerOf_of_firstError Config.build hd he,
      State.withContextOf_of_firstError Config.build hd he, State.answered]

/-- A command to which no error of R207's order applies is legal, and completes with its answer. -/
theorem runCommand_of_no_firstError {c : Command} {s : State} (he : firstError c s = none) :
    ∃ i, decode c = .ok i ∧
      runCommand c s = .next ((s.withContextOf Config.build i).answered (answerOf Config.build s i)) := by
  cases hd : decode c with
  | error w => cases (firstError_illegal hd s).symm.trans he
  | ok i => exact ⟨i, rfl, (runCommand_ok hd s).trans (exec_eq i s)⟩

/-! ### The obligations -/

/-- Settles O23: the first error that applies is the command's answer; where none does, a legal command gives one of the
three codes. -/
theorem firstErrorInOrderIsReported : Obligations.FirstErrorInOrderIsReported := by
  intro s c rest hh
  rw [step_eq_runCommand hh]
  refine ⟨fun e he => runCommand_of_firstError he, fun he => ?_⟩
  obtain ⟨i, hd, hr⟩ := runCommand_of_no_firstError (s := { s with host := rest }) he
  refine ⟨_, _, _, _, hr, by rw [State.answered_observed, State.withContextOf_observed, Answer.observation], ?_⟩
  obtain hok | ⟨hp, hm, iv, data, rfl⟩ | ⟨hk, m, key, rfl⟩ :=
    answerOf_of_no_firstError Config.build (s := { s with host := rest }) hd he
  · exact .inl hok
  · exact .inr (.inl ⟨hp, hm, iv, data, hd⟩)
  · exact .inr (.inr ⟨by rw [hk], m, key, hd⟩)

/-- Settles O24: an error of R207's order leaves exactly its response; past those, only `InvalidPadding` and
`InvalidKey` are left, and neither writes the context. -/
theorem errorsChangeNoState : Obligations.ErrorsChangeNoState := by
  intro c s t ht
  cases he : firstError c s with
  | some e =>
    cases (runCommand_of_firstError he).symm.trans ht
    exact ⟨e, [], [], rfl, fun _ => ⟨rfl, rfl, fun _ => rfl⟩⟩
  | none =>
    obtain ⟨i, hd, hr⟩ := runCommand_of_no_firstError he
    cases hr.symm.trans ht
    refine ⟨(answerOf Config.build s i).code, _, (answerOf Config.build s i).trace, exec_observed (exec_eq i s),
      fun hne => ?_⟩
    have hout := answerOf_noOutputOnError Config.build s i hne
    refine ⟨hout, by rw [State.withContextOf_of_error hne, State.answered, hout], fun hpad => ?_⟩
    obtain hok | ⟨hp, -⟩ | ⟨hk, -⟩ := answerOf_of_no_firstError Config.build hd he
    · exact absurd hok hne
    · exact absurd hp hpad
    · rw [hk]

/-- Settles O7, by the step's case for an empty channel. -/
theorem idleEngineKeepsItsState : Obligations.IdleEngineKeepsItsState := fun _ h => stepWith_idle h

/-- Settles O18: the check of the context is the first that ENC and DEC make. -/
theorem noContextFailsEncAndDec : Obligations.NoContextFailsEncAndDec := fun iv data _ hv =>
  exec_of_failed_check (fun k => by rw [hv, checkedAnswer_no_context iv k]) data

/-- Settles O19: with a context, the check of the IV comes before the mode is looked at. -/
theorem wrongIvLengthFailsEncAndDec : Obligations.WrongIvLengthFailsEncAndDec := fun _ data _ hv hl =>
  exec_of_failed_check (fun k => by rw [hv, checkedAnswer_wrong_iv hl k]) data

end Sys2Proof.Machine
end

section
/-! PROOFS. The statements of 70_reset_and_hazards.md: what a reset leaves (R230), and how many primitive calls a command
makes (R240, R241). -/

namespace Sys2Proof.Machine

open Sys2Proof

/-! ### Reset -/

theorem State.applyReset_idle (s : State) : s.applyReset.Idle := ⟨rfl, rfl, rfl, rfl, rfl⟩

/-! ### Counting the calls of a trace -/

/-- The numbers of `E` and of `D` calls of a trace. -/
def callCounts (tr : List PrimCall) : Nat × Nat := (encCalls tr, decCalls tr)

@[simp] theorem callCounts_map_E (xs : List Block) : callCounts (xs.map .E) = (xs.length, 0) := by
  simp [callCounts, encCalls, decCalls, List.countP_map, Function.comp_def]

@[simp] theorem callCounts_map_D (xs : List Block) : callCounts (xs.map .D) = (0, xs.length) := by
  simp [callCounts, encCalls, decCalls, List.countP_map, Function.comp_def]

/-- Every call is an `E` call or a `D` call. -/
theorem length_eq_encCalls_add_decCalls (tr : List PrimCall) : tr.length = encCalls tr + decCalls tr := by
  rw [encCalls, decCalls, List.length_eq_countP_add_countP]
  congr 2
  funext c
  cases c with
  | E x => rfl
  | D x => rfl

/-! ### The calls of the engines -/

theorem callCounts_streamAnswer (E : Block → Block) (next : Block → Block → Block) (iv : Block) (data : ByteSeq) :
    callCounts (streamAnswer E next iv data).trace = (streamCalls data, 0) := by
  rw [streamAnswer, callCounts_map_E, length_streamInputs]

theorem callCounts_cbcEncAnswer (E : Block → Block) (iv : Block) (p : ByteSeq) :
    callCounts (cbcEncAnswer E iv p).trace = (p.length / 16 + 1, 0) := by
  rw [cbcEncAnswer_eq, callCounts_map_E, length_cbcEncInputs, length_paddedBlocks]

/-- CBC decryption decrypts every block of the ciphertext, whatever pad it finds (R146, R206). -/
theorem callCounts_cbcDecAnswer (D : Block → Block) (iv : Block) {c : ByteSeq} (h : c.length % 16 = 0) :
    callCounts (cbcDecAnswer D iv c).trace = (0, c.length / 16) := by
  have htrace : (cbcDecAnswer D iv c).trace = (fullBlocks c).map .D := by
    rw [cbcDecAnswer, if_pos h]
    split
    · rfl
    · split
      · rfl
      · rfl
  rw [htrace, callCounts_map_D, length_fullBlocks, nFull]

/-! ### The calls of a command -/

/-- R240's table: the `E` and `D` calls of a command that passes its checks, with a context of mode `m`. -/
def callTable (m : CipherMode) : Instr → Nat × Nat
  | .enc _ data => if m = .cbc then (data.length / 16 + 1, 0) else (streamCalls data, 0)
  | .dec _ data => if m = .cbc then (0, data.length / 16) else (streamCalls data, 0)
  | .newctx _ _ => (0, 0)
  | .bxor _ _ => (0, 0)
  | .ctrinc _ => (0, 0)

theorem callCounts_encModeAnswer (P : Primitive) (key : ByteSeq) (m : CipherMode) (iv : Block)
    (ivBytes data : ByteSeq) :
    callCounts (encModeAnswer P key m iv data).trace = callTable m (.enc ivBytes data) := by
  cases m with
  | cfb => exact callCounts_streamAnswer ..
  | ofb => exact callCounts_streamAnswer ..
  | ctr => exact callCounts_streamAnswer ..
  | cbc => exact callCounts_cbcEncAnswer ..

theorem callCounts_decModeAnswer (P : Primitive) (key : ByteSeq) {m : CipherMode} (iv : Block) (ivBytes : ByteSeq)
    {data : ByteSeq} (h : ¬ (m = .cbc ∧ data.length % 16 ≠ 0)) :
    callCounts (decModeAnswer P key m iv data).trace = callTable m (.dec ivBytes data) := by
  cases m with
  | cfb => exact callCounts_streamAnswer ..
  | ofb => exact callCounts_streamAnswer ..
  | ctr => exact callCounts_streamAnswer ..
  | cbc => exact callCounts_cbcDecAnswer _ iv (not_not.1 fun hne => h ⟨rfl, hne⟩)

/-- An error found by a check or by the key test: neither OK nor `InvalidPadding`, and raised before any call (R201 to
R205). -/
def Answer.FailsUncalled (a : Answer) : Prop := a.code ≠ .ok ∧ a.code ≠ .invalidPadding ∧ a.trace = []

/-- The checks ENC and DEC share make no call; past them the engine answers. -/
theorem checkedAnswer_failsUncalled_or_engine (v : Bool) (iv : ByteSeq) (k : Block → Answer) :
    (checkedAnswer v iv k).FailsUncalled ∨ ∃ x, checkedAnswer v iv k = k x := by
  cases v with
  | false => exact .inl ⟨nofun, nofun, rfl⟩
  | true =>
    by_cases hl : iv.length = 16
    · exact .inr ⟨⟨iv, hl⟩, checkedAnswer_ready ⟨iv, hl⟩ k⟩
    · rw [checkedAnswer_wrong_iv hl]
      exact .inl ⟨nofun, nofun, rfl⟩

/-- How many calls a command makes: none if it fails a check; otherwise those of R240's table, and then it answers OK, or
`InvalidPadding` to a CBC decryption. -/
theorem answerOf_calls (b : Build) (s : State) (i : Instr) :
    (answerOf b s i).FailsUncalled ∨
    (callCounts (answerOf b s i).trace = callTable s.mode i ∧
      ((answerOf b s i).code = .ok ∨
        ((answerOf b s i).code = .invalidPadding ∧ s.mode = .cbc ∧ ∃ iv data, i = .dec iv data))) := by
  cases i with
  | newctx m key =>
    rw [answerOf]
    split
    · exact .inr ⟨rfl, .inl rfl⟩
    · exact .inl ⟨nofun, nofun, rfl⟩
  | enc iv data =>
    rw [answerOf]
    obtain hf | ⟨x, hx⟩ := checkedAnswer_failsUncalled_or_engine s.ctxv iv
      fun v => encModeAnswer b.prim s.keyreg s.mode v data
    · exact .inl hf
    · rw [hx]
      exact .inr ⟨callCounts_encModeAnswer .., .inl (encModeAnswer_code ..)⟩
  | dec iv data =>
    rw [answerOf]
    obtain hf | ⟨x, hx⟩ := checkedAnswer_failsUncalled_or_engine s.ctxv iv
      fun v => decModeAnswer b.prim s.keyreg s.mode v data
    · exact .inl hf
    · rw [hx]
      by_cases hpartial : s.mode = .cbc ∧ data.length % 16 ≠ 0
      · obtain ⟨hm, hl⟩ := hpartial
        rw [hm, decModeAnswer, cbcDecAnswer_of_partial_block _ x hl]
        exact .inl ⟨nofun, nofun, rfl⟩
      · exact .inr ⟨callCounts_decModeAnswer _ _ x iv hpartial,
          (decModeAnswer_code _ _ x hpartial).imp id fun ⟨hp, hm⟩ => ⟨hp, hm, iv, data, rfl⟩⟩
  | bxor x y => exact .inr ⟨rfl, .inl rfl⟩
  | ctrinc x => exact .inr ⟨rfl, .inl rfl⟩

/-- R241's bound: `floor(L/16) + 1` calls for ENC and DEC, none for the other commands. -/
def maxCalls : Instr → Nat
  | .enc _ data => data.length / 16 + 1
  | .dec _ data => data.length / 16 + 1
  | .newctx _ _ => 0
  | .bxor _ _ => 0
  | .ctrinc _ => 0

theorem streamCalls_le (data : ByteSeq) : streamCalls data ≤ data.length / 16 + 1 := by
  rw [streamCalls, nFull]
  split
  · exact Nat.le_refl _
  · exact Nat.le_succ _

theorem callTable_le (m : CipherMode) (i : Instr) : (callTable m i).1 + (callTable m i).2 ≤ maxCalls i := by
  cases i with
  | newctx m key => exact Nat.le_refl 0
  | enc iv data =>
    rw [callTable]
    split
    · exact Nat.le_refl _
    · exact streamCalls_le data
  | dec iv data =>
    rw [callTable]
    split
    · simp [maxCalls]
    · exact streamCalls_le data
  | bxor x y => exact Nat.le_refl 0
  | ctrinc x => exact Nat.le_refl 0

theorem length_trace_answerOf_le (b : Build) (s : State) (i : Instr) :
    (answerOf b s i).trace.length ≤ maxCalls i := by
  obtain ⟨-, -, htrace⟩ | ⟨hcalls, -⟩ := answerOf_calls b s i
  · simp [htrace]
  · calc (answerOf b s i).trace.length
        = (callCounts (answerOf b s i).trace).1 + (callCounts (answerOf b s i).trace).2 :=
          length_eq_encCalls_add_decCalls _
      _ = (callTable s.mode i).1 + (callTable s.mode i).2 := by rw [hcalls]
      _ ≤ maxCalls i := callTable_le s.mode i

/-- The STATUS word of a response tells the code of its answer. -/
theorem Answer.observation_status_iff {a : Answer} {e : StatusCode} :
    a.observation.response.status = e.word ↔ a.code = e :=
  ⟨StatusCode.eq_of_word_eq, congrArg StatusCode.word⟩

/-! ### The obligations -/

/-- Settles O8: the step's case for a reset. -/
theorem resetActionClearsTheEngine : Obligations.ResetActionClearsTheEngine := fun _ _ h =>
  ⟨_, stepWith_reset h, rfl, State.applyReset_idle _, rfl, rfl⟩

/-- Settles O27: every command leaves its answer, whose calls are those of R240's table or none. -/
theorem everyCommandCompletes : Obligations.EveryCommandCompletes := fun i s =>
  ⟨_, _, exec_eq i s, exec_observed (exec_eq i s), by simp, State.answered_idle _ _,
    length_trace_answerOf_le Config.build s i⟩

/-- Settles O28: of the answers of a command, only an OK and the `InvalidPadding` of a CBC decryption come after calls,
and those are the calls of R240's table. -/
theorem primitiveCallCountsOfCommands : Obligations.PrimitiveCallCountsOfCommands := by
  intro i s t o h ho
  obtain rfl : (answerOf Config.build s i).observation = o := by simpa [exec_observed h] using ho
  obtain ⟨hok, hpad, htrace⟩ | ⟨hcalls, hok | ⟨hpad, hm, iv, data, rfl⟩⟩ := answerOf_calls Config.build s i
  · refine ⟨fun h => absurd (Answer.observation_status_iff.1 h) hok, fun _ => ?_⟩
    rw [if_neg (mt Answer.observation_status_iff.1 hpad)]
    exact htrace
  · exact ⟨fun _ => hcalls, fun hne => absurd (Answer.observation_status_iff.2 hok) hne⟩
  · refine ⟨fun _ => hcalls, fun _ => ?_⟩
    rw [if_pos (Answer.observation_status_iff.2 hpad)]
    rw [hm] at hcalls
    exact ⟨iv, data, rfl, hcalls⟩

end Sys2Proof.Machine
end
